-- ==== Sys2Proof/Word.lean ====
section
/-! DEFINITION. The word types of the block (spec/00_scope.md R8, R12). -/

namespace Sys2Proof

/-- A byte of a window or of RING (R12 `u8`). -/
abbrev Byte := BitVec 8

/-- An int16 element of a stream, of MIXBUF or of AUX_RAM, as its 16-bit pattern (R12, R13). -/
abbrev Sample := BitVec 16

/-- A 32-bit register, command word or accumulator (R12 `u32`, `int32`). -/
abbrev Word := BitVec 32

end Sys2Proof
end

