-- ==== Sys2Proof/Config.lean ====
section
/-! DEFINITION. What an implementation fixes (spec/00_scope.md R7 to R9), and the free values: constants with no body
that stand where the spec says `any` (R14, 93_implementation_defined.md I3 to I5). -/

namespace Sys2Proof

/-- The block's identity string (R2). -/
def identity : String := "audio_mixer-cannonball-v7"

/-- The legal frame rates `FPS_SET = {30, 60, 120}` (R8, R30). -/
inductive Fps where
  | fps30
  | fps60
  | fps120
deriving DecidableEq, Repr

/-- `P_CLIP_MODE`, the positive clip policy (R7, R9). -/
inductive ClipMode where
  | saturate
  | parity
deriving DecidableEq, Repr

/-- The configuration parameters of R7. Each is fixed for the life of a model instance: State carries one record and
no event changes it (notes/assumptions/2.md). -/
structure Config where
  /-- `P_SAMPLE_RATE`, stereo frames per second. -/
  sampleRate : Nat
  /-- `P_BASE_BLOCK(30)`, stereo frames. -/
  baseBlock30 : Nat
  /-- `P_BASE_BLOCK(60)`, stereo frames. -/
  baseBlock60 : Nat
  /-- `P_BASE_BLOCK(120)`, stereo frames. -/
  baseBlock120 : Nat
  /-- `P_FRAGMENTS`. -/
  fragments : Nat
  /-- `P_DELAY`, stereo frames. -/
  delay : Nat
  /-- `P_STREAM_MAX`, elements of PCM_IN and of SYNTH_IN. -/
  streamMax : Nat
  /-- `P_AUX_MAX`, elements of AUX_RAM. -/
  auxMax : Nat
  /-- `P_CLIP_MODE`. -/
  clipMode : ClipMode
  /-- `P_BASE`, the bus address of offset 0. -/
  base : Nat
deriving DecidableEq, Repr

/-- Configuration T of spec/95_test_vectors.md section 0, with P_BASE = 0, which T does not give.
DESIGN CHOICE (unsafe, notes/assumptions/2.md): the configuration that `State.reset` carries. -/
def Config.testT : Config where
  sampleRate := 240
  baseBlock30 := 4
  baseBlock60 := 4
  baseBlock120 := 4
  fragments := 2
  delay := 2
  streamMax := 16
  auxMax := 8
  clipMode := .saturate
  base := 0

/-- Configuration T2 of spec/95_test_vectors.md section 0, with P_BASE = 0. -/
def Config.testT2 : Config :=
  { Config.testT with
    baseBlock30 := 1, baseBlock60 := 1, baseBlock120 := 1, fragments := 1, delay := 1 }

/-- The value of the byte at a block offset of PCM_IN, SYNTH_IN or AUX_RAM that nothing has written since power-on
number `epoch` (R45 "unspecified (any value)", I4). A free value: it has no body. notes/assumptions/3.md. -/
opaque Config.powerOnByte : (epoch offset : Nat) → Byte

/-- The value of the `k`-th `any` draw of a host read (R56, R58, I3, I5). A free value: it has no body.
notes/assumptions/5.md. -/
opaque Config.anyRead : (k : Nat) → Nat

end Sys2Proof
end

