-- ==== Sys2Proof/Syntax.lean ====
section
/-! DEFINITION. The commands, one constructor per row of spec/opcode_table.json (spec/30_encoding.md R78). -/

namespace Sys2Proof

/-- The twelve commands of R78. An operand is ARG read as an unsigned natural (R77). -/
inductive Instr where
  /-- NOP (R126). -/
  | nop
  /-- ENABLE (R127). -/
  | enable
  /-- DISABLE (R129). -/
  | disable
  /-- PAUSE (R131). -/
  | pause
  /-- RESUME (R133). -/
  | resume
  /-- SET_FPS with FPSV, the new rate in frames per second (R135). -/
  | setFps (v : Nat)
  /-- RESET (R100). -/
  | reset
  /-- MIX with N, the element count of both input streams (R90). -/
  | mix (n : Nat)
  /-- PUSH with N, the element count of the mixed data (R101). -/
  | push (n : Nat)
  /-- TICK with N (R137). -/
  | tick (n : Nat)
  /-- AUX_LOAD with L, the clip length in elements (R115). -/
  | auxLoad (l : Nat)
  /-- AUX_CLEAR (R118). -/
  | auxClear
deriving DecidableEq, Repr

end Sys2Proof
end

