-- ==== Sys2Proof/WellFormed.lean ====
section
/-! DEFINITION. Which commands have an encoding: an operand is at most 16777215 (spec/30_encoding.md R77, R83). -/

namespace Sys2Proof

/-- An operand fits ARG's 24 bits: "range 0 to 16777215" (R77). -/
def operandFits (arg : Nat) : Bool := decide (arg ≤ 16777215)

/-- A command has an encoding. An operand value that is out of range for the command itself (a bad FPSV, a long N)
is not ill-formed: the command's own rule checks it at execution (R81). -/
def Instr.wellFormed : Instr → Bool
  | .nop => true
  | .enable => true
  | .disable => true
  | .pause => true
  | .resume => true
  | .setFps v => operandFits v
  | .reset => true
  | .mix n => operandFits n
  | .push n => operandFits n
  | .tick n => operandFits n
  | .auxLoad l => operandFits l
  | .auxClear => true

end Sys2Proof
end

