-- ==== Sys2Proof/Decode.lean ====
section
/-! DEFINITION. Decoding a command word, total and rejecting by name (spec/30_encoding.md R75 to R82); the encoder and
the assembler's rules (R76, R83). -/

namespace Sys2Proof

/-- Why a word is no command; the block raises ILLEGAL_CMD for both (R79, R80). -/
inductive IllegalWord where
  /-- Opcode 0x0C to 0xFF (R79). -/
  | reservedOpcode (op : Byte)
  /-- A nonzero ARG on a command whose ARG must be 0 (R80). -/
  | nonzeroArg (op : Byte) (arg : Nat)
deriving DecidableEq, Repr

/-- What a 32-bit word is: a command, or illegal (R82). -/
inductive Decoded where
  | command (i : Instr)
  | illegal (why : IllegalWord)
deriving DecidableEq, Repr

/-- The OP field, bits 7:0 (R76). -/
def opField (w : Word) : Byte := w.extractLsb' 0 8

/-- The ARG field, bits 31:8, as an unsigned natural (R76, R77). -/
def argField (w : Word) : Nat := (w.extractLsb' 8 24).toNat

/-- "requires arg = 0" of R75 (R80). -/
def requireZeroArg (i : Instr) (op : Byte) (arg : Nat) : Decoded :=
  if arg = 0 then .command i else .illegal (.nonzeroArg op arg)

/-- The opcode match of R75 on the fields of a word. -/
def decodeFields (op : Byte) (arg : Nat) : Decoded :=
  match op.toNat with
  | 0x00 => requireZeroArg .nop op arg
  | 0x01 => requireZeroArg .enable op arg
  | 0x02 => requireZeroArg .disable op arg
  | 0x03 => requireZeroArg .pause op arg
  | 0x04 => requireZeroArg .resume op arg
  | 0x05 => .command (.setFps arg)
  | 0x06 => requireZeroArg .reset op arg
  | 0x07 => .command (.mix arg)
  | 0x08 => .command (.push arg)
  | 0x09 => .command (.tick arg)
  | 0x0A => .command (.auxLoad arg)
  | 0x0B => requireZeroArg .auxClear op arg
  | _ => .illegal (.reservedOpcode op)

/-- Decoding is total (R82): every 32-bit word is one of the twelve commands or illegal. -/
def decode (w : Word) : Decoded := decodeFields (opField w) (argField w)

/-- The opcode of a command (R78). -/
def Instr.opcode : Instr → Byte
  | .nop => 0x00
  | .enable => 0x01
  | .disable => 0x02
  | .pause => 0x03
  | .resume => 0x04
  | .setFps _ => 0x05
  | .reset => 0x06
  | .mix _ => 0x07
  | .push _ => 0x08
  | .tick _ => 0x09
  | .auxLoad _ => 0x0A
  | .auxClear => 0x0B

/-- The value of ARG in a command's word: its operand, or 0 (R77, R80). -/
def Instr.operand : Instr → Nat
  | .nop => 0
  | .enable => 0
  | .disable => 0
  | .pause => 0
  | .resume => 0
  | .setFps v => v
  | .reset => 0
  | .mix n => n
  | .push n => n
  | .tick n => n
  | .auxLoad l => l
  | .auxClear => 0

/-- The word `(ARG << 8) | OP` of a well-formed command (R76). -/
def encode (i : Instr) : Word := BitVec.ofNat 24 i.operand ++ i.opcode

/-- The instruction the decoder reads from a table row's word: bit 0 is the least significant bit of the one 32-bit
word, and every bit at or above `nbits` is 0. -/
def decodeTableWord (nbits w : Nat) : Option Instr :=
  match decode (BitVec.ofNat 32 (w % 2 ^ nbits)) with
  | .command i => some i
  | .illegal _ => none

/-! ### The assembler (R83) -/

/-- The mnemonics of R78. -/
inductive Mnemonic where
  | NOP | ENABLE | DISABLE | PAUSE | RESUME | SET_FPS | RESET | MIX | PUSH | TICK | AUX_LOAD | AUX_CLEAR
deriving DecidableEq, Repr

/-- The command a mnemonic and its optional operand stand for: none where a command of R80 is given an operand or an
operand is missing (R83; notes/assumptions/15.md). -/
def Mnemonic.command : Mnemonic → Option Nat → Option Instr
  | .NOP, none => some .nop
  | .ENABLE, none => some .enable
  | .DISABLE, none => some .disable
  | .PAUSE, none => some .pause
  | .RESUME, none => some .resume
  | .SET_FPS, some v => some (.setFps v)
  | .RESET, none => some .reset
  | .MIX, some n => some (.mix n)
  | .PUSH, some n => some (.push n)
  | .TICK, some n => some (.tick n)
  | .AUX_LOAD, some l => some (.auxLoad l)
  | .AUX_CLEAR, none => some .auxClear
  | _, _ => none

/-- The assembled word, or none where the assembler rejects the line: an operand above 16777215, an operand on a
command of R80, a missing operand (R83). -/
def assemble (m : Mnemonic) (operand : Option Nat) : Option Word :=
  match m.command operand with
  | some i => if i.wellFormed then some (encode i) else none
  | none => none

/-- A mnemonic as it is written (R78). -/
def Mnemonic.spelling : Mnemonic → List Char
  | .NOP => ['N', 'O', 'P']
  | .ENABLE => ['E', 'N', 'A', 'B', 'L', 'E']
  | .DISABLE => ['D', 'I', 'S', 'A', 'B', 'L', 'E']
  | .PAUSE => ['P', 'A', 'U', 'S', 'E']
  | .RESUME => ['R', 'E', 'S', 'U', 'M', 'E']
  | .SET_FPS => ['S', 'E', 'T', '_', 'F', 'P', 'S']
  | .RESET => ['R', 'E', 'S', 'E', 'T']
  | .MIX => ['M', 'I', 'X']
  | .PUSH => ['P', 'U', 'S', 'H']
  | .TICK => ['T', 'I', 'C', 'K']
  | .AUX_LOAD => ['A', 'U', 'X', '_', 'L', 'O', 'A', 'D']
  | .AUX_CLEAR => ['A', 'U', 'X', '_', 'C', 'L', 'E', 'A', 'R']

/-- The mnemonics in the order of R78. -/
def mnemonics : List Mnemonic :=
  [.NOP, .ENABLE, .DISABLE, .PAUSE, .RESUME, .SET_FPS, .RESET, .MIX, .PUSH, .TICK, .AUX_LOAD, .AUX_CLEAR]

/-- The value of a digit, of either case. -/
def digitOf (c : Char) : Option Nat :=
  let n := c.toNat
  if 48 ≤ n ∧ n ≤ 57 then some (n - 48)
  else if 65 ≤ n ∧ n ≤ 70 then some (n - 55)
  else if 97 ≤ n ∧ n ≤ 102 then some (n - 87)
  else none

/-- The number whose digits to the base `radix` follow `acc`. -/
def digitsOf (radix : Nat) : (acc : Nat) → List Char → Option Nat
  | acc, [] => some acc
  | acc, c :: cs =>
    match digitOf c with
    | some d => if d < radix then digitsOf radix (acc * radix + d) cs else none
    | none => none

/-- An operand, "in decimal or `0x` hexadecimal" (R83); at least one digit. -/
def numeral : List Char → Option Nat
  | [] => none
  | '0' :: 'x' :: [] => none
  | '0' :: 'x' :: cs => digitsOf 16 0 cs
  | cs => digitsOf 10 0 cs

/-- The assembled word of a line: the mnemonic, then one space and the operand where it has one (R83;
notes/assumptions/15.md). -/
def assembleLine (line : List Char) : Option Word :=
  let name := line.takeWhile (· != ' ')
  match mnemonics.find? (fun m => decide (m.spelling = name)), line.dropWhile (· != ' ') with
  | some m, [] => assemble m none
  | some m, _ :: rest =>
    match numeral rest with
    | some v => assemble m (some v)
    | none => none
  | none, _ => none

end Sys2Proof
end

