-- ==== Sys2Proof/Machine/State.lean ====
section
/-! DEFINITION. The block's state as plain data (spec/10_state.md R20), the reasons a step can stop, and the state after
power-on reset (R45). -/

namespace Sys2Proof.Machine

open Sys2Proof

/-- The stops of the model that are faults of the bus access itself. The HARDWARE's faults (60_exceptions.md R145) are no
stops: they are sticky state, and the step that raises one answers a next state. -/
inductive Fault where
  /-- Raised by `busRead` and `busWrite` when the host's bus address lies outside the block's 16 MiB window (R50): no unit of the spec
  answers there. Safe: the model stops where the access would not concern the block. notes/assumptions/7.md. -/
  | outsideWindow
deriving DecidableEq, Repr

/-- The refusals. -/
inductive Refusal where
  /-- An instruction that has no meaning yet. Safe. No arm of `exec` answers it. -/
  | notModelled (mnemonic : String)
  /-- Raised by `hostStep`: "A model refuses a configuration that is not well-formed" (R11, I20). Safe.
  notes/assumptions/8.md. -/
  | illFormedConfig
deriving DecidableEq, Repr

/-- The fault codes that are produced (60_exceptions.md R145); codes 7 to 15 are reserved and 0 is NONE. -/
inductive FaultCode where
  | illegalCmd
  | badFps
  | cfgStale
  | streamTooLong
  | ringOverrun
  | busError
deriving DecidableEq, Repr

/-- A sink event `Deliver { frames, samples }` (R41). -/
structure SinkEvent where
  frames : Nat
  samples : List Sample
deriving DecidableEq, Repr

/-- What a host read of `width` bytes at block offset `offset` returned, a value of `8 * width` bits (R15, R84).
The model's own record, notes/assumptions/6.md. -/
structure ReadResult where
  width : Nat
  offset : Nat
  value : Nat
deriving DecidableEq, Repr

/-- One event at the block's outside: a bus transaction of the host (R84), at a bus address (R50), or the platform's
power-on reset (R165). -/
inductive HostEvent where
  /-- A read of `n` bytes at a bus address. -/
  | read (n addr : Nat)
  /-- A write of the low `n` bytes of `v` at a bus address. -/
  | write (n addr : Nat) (v : Word)
  /-- Power-on reset. -/
  | powerOnReset
deriving DecidableEq, Repr

/-- The bytes of the block's windows, keyed by block offset (20_memory.md R51), in the canonical form `Memory.wf`. -/
abbrev Memory := List Host.Cell

/-- The record of R20, and below it the model's own fields. -/
structure State where
  /-- S.ENABLED (R25). -/
  enabled : Bool
  /-- S.PAUSED (R26). -/
  paused : Bool
  /-- S.CFG_STALE (R27). -/
  cfgStale : Bool
  /-- S.BUFS_VALID (R43). -/
  bufsValid : Bool
  /-- S.FPS (R30). -/
  fps : Fps
  /-- S.WCUR (R32). -/
  wcur : Word
  /-- S.RCUR (R33). -/
  rcur : Word
  /-- S.AUX_EMPTY (R28). -/
  auxEmpty : Bool
  /-- S.AUX_LEN (R34). -/
  auxLen : Word
  /-- S.AUX_POS (R35). -/
  auxPos : Word
  /-- S.AUX_ERR (R29). -/
  auxErr : Bool
  /-- S.FAULT (60_exceptions.md R146). -/
  fault : Bool
  /-- S.FAULT_CODE, u4 (60_exceptions.md R145). -/
  faultCode : BitVec 4
  /-- S.DRAIN_COUNT (R36). -/
  drainCount : Word
  /-- MIXBUF, RING, PCM_IN, SYNTH_IN and AUX_RAM (R38 to R42) at the offsets of their windows (20_memory.md R51). -/
  mem : Memory
  /-- SINK, oldest event first (R41). -/
  sink : List SinkEvent
  /-- The configuration (R7); the model's own field, notes/assumptions/2.md. -/
  cfg : Config
  /-- Which power-on the memory's free bytes belong to; the model's own field, notes/assumptions/3.md. -/
  epoch : Nat
  /-- The number of `any` draws made so far; the model's own field, notes/assumptions/5.md. -/
  anyCount : Nat
  /-- The values host reads returned, oldest first; the model's own field, notes/assumptions/6.md. -/
  readLog : List ReadResult
  /-- The events still to come, next first; the model's own field, notes/assumptions/1.md. -/
  pending : List HostEvent
deriving DecidableEq, Repr

/-- The state right after power-on reset of a block with configuration `cfg`: the table of R45. No byte of a window is
listed (notes/assumptions/3.md, notes/assumptions/4.md). -/
def State.powerOn (cfg : Config) : State where
  enabled := false
  paused := false
  cfgStale := false
  bufsValid := false
  fps := .fps60
  wcur := 0
  rcur := 0
  auxEmpty := true
  auxLen := 1
  auxPos := 0
  auxErr := false
  fault := false
  faultCode := 0
  drainCount := 0
  mem := []
  sink := []
  cfg := cfg
  epoch := 0
  anyCount := 0
  readLog := []
  pending := []

/-- The machine right after reset (R45, R167), in configuration T (DESIGN CHOICE, notes/assumptions/2.md). -/
def State.reset : State := State.powerOn Config.testT

end Sys2Proof.Machine
end

