-- ==== Sys2Proof/Machine/Sizes.lean ====
section
/-! DEFINITION. The derived sizes and the well-formedness of a configuration (spec/00_scope.md R8, R10, R11), and the
placement of the block on the bus (spec/20_memory.md R50). -/

namespace Sys2Proof.Machine

open Sys2Proof

/-- The frame rate as a number (R8). -/
def fpsNat : Fps → Nat
  | .fps30 => 30
  | .fps60 => 60
  | .fps120 => 120

/-- `P_BASE_BLOCK(fps)` (R7). -/
def baseBlock (c : Config) : Fps → Nat
  | .fps30 => c.baseBlock30
  | .fps60 => c.baseBlock60
  | .fps120 => c.baseBlock120

/-- `CHANNELS` (R8). -/
def channels : Nat := 2

/-- `BITS` (R8). -/
def bits : Nat := 16

/-- `BYTES_PER_FRAME = CHANNELS * (BITS/8)` (R8). -/
def bytesPerFrame : Nat := channels * (bits / 8)

/-- `FRAMES(fps)`, stereo frames per tick, rounded toward zero (R10). -/
def frames (c : Config) (f : Fps) : Nat := c.sampleRate / fpsNat f

/-- `MIXLEN(fps)`, the live Mix Buffer in elements (R10). -/
def mixLen (c : Config) (f : Fps) : Nat := frames c f * channels

/-- `MIXLEN_MAX = MIXLEN(30)` (R10). -/
def mixLenMax (c : Config) : Nat := mixLen c .fps30

/-- `CAP(fps)`, the ring's capacity in bytes (R10). -/
def cap (c : Config) (f : Fps) : Nat :=
  channels * (bits / 8) * (baseBlock c f * c.fragments + c.delay)

/-- `OFFSET(fps)`, the write cursor after RESET, in bytes (R10). -/
def offset (c : Config) (f : Fps) : Nat := (c.delay + baseBlock c f) * bytesPerFrame

/-- The constraint of R11 on the capacity at one rate. -/
def capFits (c : Config) (f : Fps) : Bool := decide (1 ≤ cap c f ∧ cap c f ≤ 262144)

/-- The configuration is well-formed: the constraints of R7's table and of R11. -/
def configWf (c : Config) : Bool :=
  decide (1 ≤ c.sampleRate ∧ c.sampleRate ≤ 491520) &&
  decide (1 ≤ c.fragments) &&
  (capFits c .fps30 && capFits c .fps60 && capFits c .fps120) &&
  decide (mixLenMax c ≤ 32768) &&
  decide (mixLenMax c ≤ c.streamMax ∧ c.streamMax ≤ 32768) &&
  decide (1 ≤ c.auxMax ∧ c.auxMax ≤ 4194304) &&
  decide (c.base % 0x1000000 = 0)

/-- The size of the block's window of byte offsets (R50). -/
def windowSize : Nat := 0x1000000

/-- The block offset of a bus address, where the address lies in the window at `P_BASE` (R50). -/
def busOffset (c : Config) (addr : Nat) : Option Nat :=
  if c.base ≤ addr ∧ addr < c.base + windowSize then some (addr - c.base) else none

end Sys2Proof.Machine
end

