-- ==== Sys2Proof/Machine/Memory.lean ====
section
/-! DEFINITION. The windows as one sparse memory keyed by block offset (spec/20_memory.md R51 to R54): its canonical form,
one byte read, one block write, and the little-endian byte helpers. -/

namespace Sys2Proof.Machine

open Sys2Proof

/-! ### The window map (R51) -/

/-- First offset of PCM_IN. -/
abbrev pcmBase : Nat := 0x010000

/-- First offset of SYNTH_IN. -/
abbrev synthBase : Nat := 0x020000

/-- First offset of MIXBUF. -/
abbrev mixBase : Nat := 0x030000

/-- First offset of RING. -/
abbrev ringBase : Nat := 0x040000

/-- First offset of AUX_RAM. -/
abbrev auxBase : Nat := 0x800000

/-- The rows of R51; `reserved` stands for both reserved rows. -/
inductive Region where
  | regs
  | pcmIn
  | synthIn
  | mixbuf
  | ring
  | auxRam
  | reserved
deriving DecidableEq, Repr

/-- The row of R51 that contains an offset. -/
def region (off : Nat) : Region :=
  if off < 0x001000 then .regs
  else if off < 0x010000 then .reserved
  else if off < 0x020000 then .pcmIn
  else if off < 0x030000 then .synthIn
  else if off < 0x040000 then .mixbuf
  else if off < 0x080000 then .ring
  else if off < 0x800000 then .reserved
  else if off < 0x1000000 then .auxRam
  else .reserved

/-! ### The canonical form -/

/-- What an unlisted offset reads as. MIXBUF and RING: 0, which no host read and no command of a reachable state sees
before RESET has zeroed them (notes/assumptions/4.md). Every other offset: no value; a byte of RAM that nothing has
written (R45, I4; notes/assumptions/3.md). -/
def Memory.unlisted (a : Nat) : Option Byte :=
  if 0x030000 ≤ a ∧ a < 0x080000 then some 0 else none

/-- The cells from `lo` on are listed in strictly rising order, none equal to what an unlisted offset reads as. -/
def Memory.wfFrom : Nat → Memory → Bool
  | _, [] => true
  | lo, (a, b) :: m => decide (lo ≤ a) && (some b != Memory.unlisted a) && Memory.wfFrom (a + 1) m

/-- The canonical form: equal memories are equal lists. -/
def Memory.wf (m : Memory) : Bool := Memory.wfFrom 0 m

/-! ### Reading and writing -/

/-- The byte at an offset, or none where nothing has written it. -/
def Memory.lookup : Memory → Nat → Option Byte
  | [], a => Memory.unlisted a
  | (k, b) :: m, a => if k = a then some b else Memory.lookup m a

/-- The cells that list `bs` from offset `a` on, without those an unlisted offset stands for. -/
def Memory.cells : Nat → List Byte → Memory
  | _, [] => []
  | a, b :: bs => if some b = Memory.unlisted a then Memory.cells (a + 1) bs else (a, b) :: Memory.cells (a + 1) bs

/-- `m` with the bytes `bs` at offsets `a, a + 1, …` and every other byte as it was. -/
def Memory.writeBytes (m : Memory) (a : Nat) (bs : List Byte) : Memory :=
  m.filter (fun c => decide (c.1 < a)) ++ Memory.cells a bs ++ m.filter (fun c => decide (a + bs.length ≤ c.1))

/-! ### Little-endian helpers (R53, R54) -/

/-- Bits 7:0 of an element's pattern. -/
def loByte (x : Sample) : Byte := x.extractLsb' 0 8

/-- Bits 15:8 of an element's pattern. -/
def hiByte (x : Sample) : Byte := x.extractLsb' 8 8

/-- The bytes of a list of elements, in window order (R54). -/
def bytesOf : List Sample → List Byte
  | [] => []
  | x :: xs => loByte x :: hiByte x :: bytesOf xs

/-- The value whose bytes, least significant first, are `bs` (R53, R59). -/
def composeLE : List Byte → Nat
  | [] => 0
  | b :: bs => b.toNat + 256 * composeLE bs

/-- Byte `j` of a written value, `v[8j+7 : 8j]` (R59). -/
def byteOf (v : Word) (j : Nat) : Byte := v.extractLsb' (8 * j) 8

/-! ### Bytes and elements of a state -/

/-- The byte at a block offset; a byte that nothing has written since power-on is a free value (R45, I4). -/
def byteAt (s : State) (a : Nat) : Byte := (s.mem.lookup a).getD (Config.powerOnByte s.epoch a)

/-- Element `k` of the int16 window at `base` (R54). -/
def elemAt (s : State) (base k : Nat) : Sample := byteAt s (base + 2 * k + 1) ++ byteAt s (base + 2 * k)

/-- `PCM_IN[k]` (R40). -/
def pcmAt (s : State) (k : Nat) : Sample := elemAt s pcmBase k

/-- `SYNTH_IN[k]` (R40). -/
def synthAt (s : State) (k : Nat) : Sample := elemAt s synthBase k

/-- `MIXBUF[k]` (R38). -/
def mixAt (s : State) (k : Nat) : Sample := elemAt s mixBase k

/-- `AUX_RAM[k]` (R42). -/
def auxAt (s : State) (k : Nat) : Sample := elemAt s auxBase k

/-- `RING[b]` (R39). -/
def ringAt (s : State) (b : Nat) : Byte := byteAt s (ringBase + b)

/-- `mbuf8[j]`, the byte view of MIXBUF (R73). -/
def mbuf8 (s : State) (j : Nat) : Byte := byteAt s (mixBase + j)

/-- The state with the bytes `bs` stored from block offset `a` on. -/
def State.store (s : State) (a : Nat) (bs : List Byte) : State := { s with mem := s.mem.writeBytes a bs }

end Sys2Proof.Machine
end

