-- ==== Sys2Proof/Machine/Flags.lean ====
section
/-! DEFINITION. The status and fault fields: the fault codes, the STATUS register and the activity gate
(spec/10_state.md R24, spec/60_exceptions.md R145, spec/43_lifecycle.md R125). -/

namespace Sys2Proof.Machine

open Sys2Proof

/-- The value of FAULT_CODE for each fault that is produced (R145). -/
def faultNumber : FaultCode → BitVec 4
  | .illegalCmd => 1
  | .badFps => 2
  | .cfgStale => 3
  | .streamTooLong => 4
  | .ringOverrun => 5
  | .busError => 6

/-- The block is active: `S.ENABLED = 1` and `S.PAUSED = 0` (R125). -/
def active (s : State) : Bool := s.enabled && !s.paused

/-- The STATUS register; every bit not listed in R24 reads 0. -/
def statusWord (s : State) : Word :=
  (0 : BitVec 20) ++ s.faultCode ++ BitVec.ofBool s.fault ++ (0 : BitVec 1) ++ BitVec.ofBool s.bufsValid ++
    BitVec.ofBool s.auxErr ++ BitVec.ofBool s.auxEmpty ++ BitVec.ofBool s.cfgStale ++ BitVec.ofBool s.paused ++
    BitVec.ofBool s.enabled

end Sys2Proof.Machine
end

