-- ==== Sys2Proof/Machine/Operands.lean ====
section
/-! DEFINITION. What a command's operand means and which operand values its rule turns away (spec/30_encoding.md R77,
R81): FPSV, N and L. -/

namespace Sys2Proof.Machine

open Sys2Proof

/-- FPSV as a frame rate, none where it is not 30, 60 or 120 (R135). -/
def rateOf (v : Nat) : Option Fps :=
  if v = 30 then some .fps30
  else if v = 60 then some .fps60
  else if v = 120 then some .fps120
  else none

/-- `N > MIXLEN(S.FPS)`: the check of STREAM_TOO_LONG (R90, R101, R137). -/
def streamTooLong (s : State) (n : Nat) : Bool := decide (mixLen s.cfg s.fps < n)

/-- `BytesWritten(N) = 2 * N` (R106). -/
def bytesWritten (n : Nat) : Nat := 2 * n

/-- `2*N > CAP(S.FPS)`: the check of RING_OVERRUN (R101, R137). -/
def ringOverrun (s : State) (n : Nat) : Bool := decide (cap s.cfg s.fps < bytesWritten n)

/-- A load fails exactly when `L = 0` or `L > P_AUX_MAX` (R116). -/
def loadFails (s : State) (l : Nat) : Bool := decide (l = 0 ∨ s.cfg.auxMax < l)

end Sys2Proof.Machine
end

