-- ==== Sys2Proof/Machine/Ops.lean ====
section
/-! DEFINITION. The shared operations: raising a fault (spec/60_exceptions.md R146), the mix loop and the clip
(spec/40_mix_stage.md R90 to R93), the ring's reset, wrapped copy, drift correction and delivery
(spec/41_delivery_ring.md R100 to R106), and power-on reset (spec/70_reset_and_hazards.md R165). -/

namespace Sys2Proof.Machine

open Sys2Proof

/-! ### Faults -/

/-- `raise Fault(code)`: the first fault is recorded and kept, and nothing else changes (R146). There is no trap entry
and no return: only power-on reset clears a fault (R148, R150, R151). -/
def raiseFault (c : FaultCode) (s : State) : State :=
  if s.fault then s else { s with fault := true, faultCode := faultNumber c }

/-- Power-on reset (R165): the table of R45 and an empty SINK. The configuration, the events still to come and the
record of reads are outside the block and stay; the RAM's free bytes are new ones (notes/assumptions/11.md). -/
def powerOnReset (s : State) : State :=
  { State.powerOn s.cfg with
    epoch := s.epoch + 1, anyCount := s.anyCount, readLog := s.readLog, pending := s.pending }

/-! ### The Mix Stage -/

/-- The int32 accumulator: each term is sign-extended and the sum is exact (R91). -/
def mixSum (a p q : Sample) : Word := a.signExtend 32 + p.signExtend 32 + q.signExtend 32

/-- What a sum at or above 32768 stores (R9, R92). The PARITY value is PRESUMED, notes/assumptions/9.md. -/
def clipCeiling : ClipMode → Sample
  | .saturate => 0x7FFF
  | .parity => 0x8000

/-- The saturation clip of an int32 sum (R92). -/
def clip (mode : ClipMode) (m : Word) : Sample :=
  if 32768 ≤ m.toInt then clipCeiling mode
  else if m.toInt < -32768 then 0x8000
  else m.setWidth 16

/-- The aux term at a cursor: 0 while the clip is the silent placeholder (R90, R119). -/
def auxTerm (s : State) (pos : Nat) : Sample := if s.auxEmpty then 0 else auxAt s pos

/-- One step of the aux cursor, which wraps to 0 on reaching the clip's length (R93). -/
def nextPos (len pos : Nat) : Nat := if pos + 1 = len then 0 else pos + 1

/-- The value MIX stores at element `i` with the aux cursor at `pos` (R90). -/
def mixElement (s : State) (i pos : Nat) : Sample :=
  clip s.cfg.clipMode (mixSum (auxTerm s pos) (pcmAt s i) (synthAt s i))

/-- The loop of R90 over `count` elements from element `i` and cursor `pos`: the values stored and the cursor after. -/
def mixLoop (s : State) : (count i pos : Nat) → List Sample × Nat
  | 0, _, pos => ([], pos)
  | count + 1, i, pos =>
    let rest := mixLoop s count (i + 1) (nextPos s.auxLen.toNat pos)
    (mixElement s i pos :: rest.1, rest.2)

/-- MIX past its checks: `MIXBUF[0 .. N)` and AUX_POS are written, all inputs read before (R14, R90, R94). -/
def mixBody (n : Nat) (s : State) : State :=
  let r := mixLoop s n 0 s.auxPos.toNat
  { s with mem := s.mem.writeBytes mixBase (bytesOf r.1), auxPos := BitVec.ofNat 32 r.2 }

/-! ### The Delivery Ring -/

/-- RESET past its gate (R100): RING and the live MIXBUF are zeroed, the cursors placed. -/
def ringReset (s : State) : State :=
  { s with
    mem := (s.mem.writeBytes ringBase (List.replicate (cap s.cfg s.fps) 0)).writeBytes mixBase
      (List.replicate (2 * mixLen s.cfg s.fps) 0)
    rcur := 0
    wcur := BitVec.ofNat 32 (offset s.cfg s.fps)
    bufsValid := true
    cfgStale := false }

/-- The wrapped copy of `bs` at write cursor `wc` into a ring of `cp` bytes (R102). -/
def ringCopy (m : Memory) (cp wc : Nat) (bs : List Byte) : Memory :=
  if (wc + bs.length) / cp = wc / cp then m.writeBytes (ringBase + wc % cp) bs
  else
    (m.writeBytes (ringBase + wc % cp) (bs.take (cp - wc % cp))).writeBytes ringBase (bs.drop (cp - wc % cp))

/-- The loop of R104, `while r > cap: (w, r) := (w - cap, r - cap)`. `fuel` bounds the number of rounds; the starting
`r` is always enough, since each round takes at least 1 from it. The write cursor is an integer, so that the
subtraction is the spec's own (R16, notes/assumptions/10.md). -/
def drift (cp : Nat) : (fuel : Nat) → (w : Int) → (r : Nat) → Int × Nat
  | 0, w, r => (w, r)
  | fuel + 1, w, r => if cp < r then drift cp fuel (w - cp) (r - cp) else (w, r)

/-- The first `k` bytes of the Mix Buffer's byte view (R73). -/
def mixBytes (s : State) (k : Nat) : List Byte := (List.range k).map (mbuf8 s)

/-- `Deliver()` (R105): one block, the whole live Mix Buffer, is emitted and counted. -/
def deliver (s : State) : State :=
  { s with
    sink := s.sink ++ [⟨frames s.cfg s.fps, (List.range (2 * frames s.cfg s.fps)).map (mixAt s)⟩]
    drainCount := s.drainCount + 1 }

/-- The copy and the cursor updates of PUSH past its checks (R102 to R104). -/
def advanceRing (bw : Nat) (s : State) : State :=
  let cp := cap s.cfg s.fps
  let c := drift cp (s.rcur.toNat + bw) (s.wcur.toNat + bw : Nat) (s.rcur.toNat + bw)
  { s with
    mem := ringCopy s.mem cp s.wcur.toNat (mixBytes s bw)
    wcur := BitVec.ofInt 32 c.1
    rcur := BitVec.ofNat 32 c.2 }

/-- PUSH past its checks (R101): copy, advance, correct drift, deliver. -/
def pushBody (n : Nat) (s : State) : State := deliver (advanceRing (bytesWritten n) s)

end Sys2Proof.Machine
end

