-- ==== Sys2Proof/Machine/AuxClip.lean ====
section
/-! DEFINITION. The Auxiliary Clip family: AUX_LOAD and AUX_CLEAR (spec/42_aux_clip.md). They run whether the block is
enabled, disabled or paused. -/

namespace Sys2Proof.Machine

open Sys2Proof

/-- AUX_LOAD (R115); a failure sets AUX_ERR and leaves the clip as it is (R116). -/
def execAuxLoad (l : Nat) (s : State) : Host.Outcome State Fault Refusal :=
  if loadFails s l then .next { s with auxErr := true }
  else .next { s with auxLen := BitVec.ofNat 32 l, auxPos := 0, auxEmpty := false, auxErr := false }

/-- AUX_CLEAR (R118): the silent placeholder, of length 1 and cursor 0. -/
def execAuxClear (s : State) : Host.Outcome State Fault Refusal :=
  .next { s with auxEmpty := true, auxLen := 1, auxPos := 0, auxErr := false }

end Sys2Proof.Machine
end

