-- ==== Sys2Proof/Machine/Lifecycle.lean ====
section
/-! DEFINITION. The lifecycle family: NOP, ENABLE, DISABLE, PAUSE, RESUME, SET_FPS and TICK (spec/43_lifecycle.md). -/

namespace Sys2Proof.Machine

open Sys2Proof

/-- NOP (R126). -/
def execNop (s : State) : Host.Outcome State Fault Refusal := .next s

/-- ENABLE (R127): a full restart, also while already enabled. -/
def execEnable (s : State) : Host.Outcome State Fault Refusal :=
  .next (ringReset { s with enabled := true, paused := false })

/-- DISABLE (R129): the buffers become undefined; the cursors, the clip and the rate stay. -/
def execDisable (s : State) : Host.Outcome State Fault Refusal :=
  .next { s with enabled := false, paused := false, cfgStale := false, bufsValid := false }

/-- PAUSE (R131): a no-op while disabled. -/
def execPause (s : State) : Host.Outcome State Fault Refusal :=
  if s.enabled then .next { s with paused := true } else .next s

/-- RESUME (R133): a no-op while disabled; it runs RESET even if the block is not paused. -/
def execResume (s : State) : Host.Outcome State Fault Refusal :=
  if s.enabled then .next (ringReset { s with paused := false }) else .next s

/-- SET_FPS (R135): BAD_FPS for another rate, a no-op for the current one; a change while enabled leaves a RESET owed
and the buffers undefined. -/
def execSetFps (v : Nat) (s : State) : Host.Outcome State Fault Refusal :=
  match rateOf v with
  | none => .next (raiseFault .badFps s)
  | some f =>
    if f = s.fps then .next s
    else if s.enabled then .next { s with fps := f, cfgStale := true, bufsValid := false }
    else .next { s with fps := f }

/-- TICK (R137): every check of MIX and PUSH before any effect, then the mix, then the push on what it wrote (R66). -/
def execTick (n : Nat) (s : State) : Host.Outcome State Fault Refusal :=
  if !active s then .next s
  else if s.cfgStale then .next (raiseFault .cfgStale s)
  else if streamTooLong s n then .next (raiseFault .streamTooLong s)
  else if ringOverrun s n then .next (raiseFault .ringOverrun s)
  else .next (pushBody n (mixBody n s))

end Sys2Proof.Machine
end

