-- ==== Sys2Proof/Machine/Mix.lean ====
section
/-! DEFINITION. The Mix Stage family: MIX (spec/40_mix_stage.md). -/

namespace Sys2Proof.Machine

open Sys2Proof

/-- MIX (R90), its checks in the order of R147. -/
def execMix (n : Nat) (s : State) : Host.Outcome State Fault Refusal :=
  if !active s then .next s
  else if s.cfgStale then .next (raiseFault .cfgStale s)
  else if streamTooLong s n then .next (raiseFault .streamTooLong s)
  else .next (mixBody n s)

end Sys2Proof.Machine
end

