-- ==== Sys2Proof/Machine/Ring.lean ====
section
/-! DEFINITION. The Delivery Ring family: RESET and PUSH (spec/41_delivery_ring.md). -/

namespace Sys2Proof.Machine

open Sys2Proof

/-- RESET (R100): a no-op while disabled; it runs while paused and cures CFG_STALE. -/
def execReset (s : State) : Host.Outcome State Fault Refusal :=
  if s.enabled then .next (ringReset s) else .next s

/-- PUSH (R101), its checks in the order of R147. -/
def execPush (n : Nat) (s : State) : Host.Outcome State Fault Refusal :=
  if !active s then .next s
  else if s.cfgStale then .next (raiseFault .cfgStale s)
  else if streamTooLong s n then .next (raiseFault .streamTooLong s)
  else if ringOverrun s n then .next (raiseFault .ringOverrun s)
  else .next (pushBody n s)

end Sys2Proof.Machine
end

