-- ==== Sys2Proof/Machine/Dispatch.lean ====
section
/-! DEFINITION. The dispatch: one arm per command, each one direct call of its meaning. -/

namespace Sys2Proof.Machine

open Sys2Proof

/-- The arms of `Execute` (spec/30_encoding.md R75) on a decoded command. -/
def exec (i : Instr) (s : State) : Host.Outcome State Fault Refusal :=
  match i with
  | .nop => Sys2Proof.Machine.execNop s
  | .enable => Sys2Proof.Machine.execEnable s
  | .disable => Sys2Proof.Machine.execDisable s
  | .pause => Sys2Proof.Machine.execPause s
  | .resume => Sys2Proof.Machine.execResume s
  | .setFps v => Sys2Proof.Machine.execSetFps v s
  | .reset => Sys2Proof.Machine.execReset s
  | .mix n => Sys2Proof.Machine.execMix n s
  | .push n => Sys2Proof.Machine.execPush n s
  | .tick n => Sys2Proof.Machine.execTick n s
  | .auxLoad l => Sys2Proof.Machine.execAuxLoad l s
  | .auxClear => Sys2Proof.Machine.execAuxClear s

end Sys2Proof.Machine
end

