-- ==== Sys2Proof/Machine/Bus.lean ====
section
/-! DEFINITION. The bus: `Execute` of a word written to CMD (spec/30_encoding.md R75), the primitives MemRead and MemWrite
(spec/20_memory.md R59), and one event of the host or the platform (R65, R84, R165). -/

namespace Sys2Proof.Machine

open Sys2Proof

/-! ### Commands -/

/-- `Execute(w)` (R75): ignored while halted (R148), ILLEGAL_CMD for a word that is no command (R79, R80), and otherwise
the command. -/
def execute (w : Word) (s : State) : Host.Outcome State Fault Refusal :=
  if s.fault then .next s
  else
    match decode w with
    | .command i => exec i s
    | .illegal _ => .next (raiseFault .illegalCmd s)

/-! ### Access checks -/

/-- First offset of a row of R51. -/
def regionBase : Region → Nat
  | .regs => 0
  | .pcmIn => pcmBase
  | .synthIn => synthBase
  | .mixbuf => mixBase
  | .ring => ringBase
  | .auxRam => auxBase
  | .reserved => 0

/-- Live size in bytes of a row of R51. -/
def liveSize (s : State) : Region → Nat
  | .regs => 0x02C
  | .pcmIn => 2 * s.cfg.streamMax
  | .synthIn => 2 * s.cfg.streamMax
  | .mixbuf => 2 * mixLenMax s.cfg
  | .ring => cap s.cfg s.fps
  | .auxRam => 2 * s.cfg.auxMax
  | .reserved => 0

/-- Bytes `off .. off+n-1` are all in the live part of off's row (R59). -/
def live (s : State) (off n : Nat) : Bool :=
  decide (off + n ≤ regionBase (region off) + liveSize s (region off))

/-- A width the bus has (R50). -/
def widthOk (n : Nat) : Bool := decide (n = 1 ∨ n = 2 ∨ n = 4)

/-- The access raises no BUS_ERROR (R52, R55, R57 to R59). -/
def accessOk (s : State) (off n : Nat) : Bool :=
  widthOk n && decide (off % n = 0) && live s off n && !(decide (region off = .regs) && decide (n ≠ 4))

/-! ### Reads -/

/-- The register values of R23; CMD reads 0. -/
def registerValue (s : State) (off : Nat) : Word :=
  if off = 0x004 then statusWord s
  else if off = 0x008 then BitVec.ofNat 32 (fpsNat s.fps)
  else if off = 0x00C then BitVec.ofNat 32 (mixLen s.cfg s.fps)
  else if off = 0x010 then BitVec.ofNat 32 (frames s.cfg s.fps)
  else if off = 0x014 then BitVec.ofNat 32 (cap s.cfg s.fps)
  else if off = 0x018 then s.wcur
  else if off = 0x01C then s.rcur
  else if off = 0x020 then s.auxLen
  else if off = 0x024 then s.auxPos
  else if off = 0x028 then s.drainCount
  else 0

/-- A read that R56 leaves unspecified: MIXBUF or RING while BUFS_VALID = 0, or a MIXBUF element at or above
MIXLEN(S.FPS). -/
def unspecified (s : State) (off n : Nat) : Bool :=
  match region off with
  | .mixbuf => !s.bufsValid || decide (mixLen s.cfg s.fps ≤ (off + n - 1 - mixBase) / 2)
  | .ring => !s.bufsValid
  | _ => false

/-- An `any` draw of `n` bytes: the next free value, and the state that has drawn it (R14, R61). -/
def drawAny (n : Nat) (s : State) : Nat × State :=
  (Config.anyRead s.anyCount % 2 ^ (8 * n), { s with anyCount := s.anyCount + 1 })

/-- `MemRead(off, n)` (R59): the value returned and the state after. -/
def memRead (n off : Nat) (s : State) : Nat × State :=
  if !accessOk s off n then drawAny n (raiseFault .busError s)
  else if region off = .regs then ((registerValue s off).toNat, s)
  else if unspecified s off n then drawAny n s
  else (composeLE ((List.range n).map (fun j => byteAt s (off + j))), s)

/-! ### Writes -/

/-- `MemWrite(off, n, v)` (R59): CMD executes the word, the other registers, MIXBUF and RING ignore it, and the input
windows and AUX_RAM take the bytes. -/
def memWrite (n off : Nat) (v : Word) (s : State) : Host.Outcome State Fault Refusal :=
  if !accessOk s off n then .next (raiseFault .busError s)
  else
    match region off with
    | .regs => if off = 0x000 then execute v s else .next s
    | .mixbuf => .next s
    | .ring => .next s
    | .pcmIn => .next (s.store off ((List.range n).map (byteOf v)))
    | .synthIn => .next (s.store off ((List.range n).map (byteOf v)))
    | .auxRam => .next (s.store off ((List.range n).map (byteOf v)))
    | .reserved => .next (raiseFault .busError s)

/-! ### Events -/

/-- The state that has recorded the value a host read returned (R84). -/
def recordRead (r : ReadResult) (s : State) : State := { s with readLog := s.readLog ++ [r] }

/-- A host read at a bus address (R50, R59). -/
def busRead (n addr : Nat) (s : State) : Host.Outcome State Fault Refusal :=
  match busOffset s.cfg addr with
  | none => .fault .outsideWindow
  | some off => .next (recordRead ⟨n, off, (memRead n off s).1⟩ (memRead n off s).2)

/-- A host write at a bus address (R50, R59). -/
def busWrite (n addr : Nat) (v : Word) (s : State) : Host.Outcome State Fault Refusal :=
  match busOffset s.cfg addr with
  | none => .fault .outsideWindow
  | some off => memWrite n off v s

/-- One event takes effect completely before the next begins (R65). -/
def runEvent (e : HostEvent) (s : State) : Host.Outcome State Fault Refusal :=
  match e with
  | .read n addr => busRead n addr s
  | .write n addr v => busWrite n addr v s
  | .powerOnReset => .next (powerOnReset s)

/-- The next event of the host's order (R65), on the state that has taken it off the list. A configuration that is not
well-formed is refused (R11). With no event pending the block waits: it takes no step of its own (R19, R167). -/
def hostStep (s : State) : Host.Outcome State Fault Refusal :=
  if !configWf s.cfg then .refused .illFormedConfig
  else
    match s.pending with
    | [] => .next s
    | e :: rest => runEvent e { s with pending := rest }

end Sys2Proof.Machine
end

