-- ==== Sys2Proof/Machine/Step.lean ====
section
/-! DEFINITION. One step of the machine: one event at the block's outside (notes/assumptions/1.md). -/

namespace Sys2Proof.Machine

open Sys2Proof

/-- One step: the next event of the host's order takes effect. -/
def step (s : State) : Host.Outcome State Fault Refusal := hostStep s

/-- `s` with a 32-bit write of the word `w` to CMD as its next event (R37): the block stores no program, so this is the
place a command comes from (notes/assumptions/1.md). -/
def State.withFetchWord (s : State) (nbits w : Nat) : State :=
  { s with pending := .write 4 s.cfg.base (BitVec.ofNat 32 (w % 2 ^ nbits)) :: s.pending }

end Sys2Proof.Machine
end

