-- ==== Sys2Proof/Machine/HostProgram.lean ====
section
/-! DEFINITION. The host's notation: bus instructions and pseudo-instructions with their expansions
(spec/30_encoding.md R84, R85), as events at bus addresses; and the sink's reading of a block (spec/00_scope.md R18). -/

namespace Sys2Proof.Machine

open Sys2Proof

/-- `W8 off, v`, `W16 off, v` and `W32 off, v` are MemWrite with n = 1, 2, 4 (R84). -/
def hostWrite (c : Config) (n off : Nat) (v : Word) : HostEvent := .write n (c.base + off) v

/-- `R8 off`, `R16 off` and `R32 off` are MemRead with n = 1, 2, 4 (R84). -/
def hostRead (c : Config) (n off : Nat) : HostEvent := .read n (c.base + off)

/-- The pseudo-instructions of R85. -/
inductive Pseudo where
  /-- `<command mnemonic> [operand]`. -/
  | command (i : Instr)
  /-- `PCM k, s`. -/
  | pcm (k : Nat) (s : Sample)
  /-- `SYN k, s`. -/
  | syn (k : Nat) (s : Sample)
  /-- `AUX k, s`. -/
  | aux (k : Nat) (s : Sample)
  /-- `RSTATUS`. -/
  | rstatus
  /-- `RWCUR`. -/
  | rwcur
  /-- `RRCUR`. -/
  | rrcur
  /-- `RMIX k`. -/
  | rmix (k : Nat)
  /-- `RRING b`. -/
  | rring (b : Nat)
deriving DecidableEq, Repr

/-- The expansions of R85. DESIGN CHOICE, notes/assumptions/16.md: a command whose operand is above 16777215, which R83
assembles to no word, still expands, to the word that holds its operand mod 2^24. -/
def expand (c : Config) : Pseudo → HostEvent
  | .command i => hostWrite c 4 0x000000 (encode i)
  | .pcm k s => hostWrite c 2 (0x010000 + 2 * k) (s.setWidth 32)
  | .syn k s => hostWrite c 2 (0x020000 + 2 * k) (s.setWidth 32)
  | .aux k s => hostWrite c 2 (0x800000 + 2 * k) (s.setWidth 32)
  | .rstatus => hostRead c 4 0x000004
  | .rwcur => hostRead c 4 0x000018
  | .rrcur => hostRead c 4 0x00001C
  | .rmix k => hostRead c 2 (0x030000 + 2 * k)
  | .rring b => hostRead c 1 (0x040000 + b)

/-- The state whose host has the program `ps` still to issue, before what is pending (R84). -/
def State.withProgram (s : State) (ps : List Pseudo) : State :=
  { s with pending := ps.map (expand s.cfg) ++ s.pending }

/-- Stereo frame `k` of a delivered block as the sink reads it: the even element is the left channel, the odd element
the right (R18, R41). Nothing the block computes depends on it. -/
def stereoFrame (e : SinkEvent) (k : Nat) : Option (Sample × Sample) :=
  match e.samples[2 * k]?, e.samples[2 * k + 1]? with
  | some l, some r => some (l, r)
  | _, _ => none

end Sys2Proof.Machine
end

