-- ==== Sys2Proof/Safety.lean ====
section
/-! DEFINITION. The terms claims use: the invariant of a reachable state (spec/10_state.md R44 and the rules each field
cites), what a run must not reach, runs of commands, and the integer reading of the mix (spec/40_mix_stage.md R90). -/

namespace Sys2Proof.Machine

open Sys2Proof

/-! ### The invariant -/

/-- What holds in every reachable state of a well-formed configuration (R44, and the rule each field names). -/
structure Inv (s : State) : Prop where
  /-- The configuration is well-formed (R11). -/
  config : configWf s.cfg = true
  /-- The memory is in its canonical form. -/
  memory : s.mem.wf = true
  /-- R44 item 1, the length. -/
  auxLength : 1 ≤ s.auxLen.toNat ∧ s.auxLen.toNat ≤ s.cfg.auxMax
  /-- R44 item 1, the cursor (R35). -/
  auxCursor : s.auxPos.toNat < s.auxLen.toNat
  /-- R44 item 2. -/
  placeholder : s.auxEmpty = true → s.auxLen = 1 ∧ s.auxPos = 0
  /-- R44 item 3. -/
  cursors : s.bufsValid = true → s.cfgStale = false →
    s.wcur.toNat = s.rcur.toNat + offset s.cfg s.fps ∧ s.rcur.toNat ≤ cap s.cfg s.fps
  /-- R44 item 4. -/
  stale : s.cfgStale = true → s.enabled = true ∧ s.bufsValid = false
  /-- R44 item 5. -/
  validEnabled : s.bufsValid = true → s.enabled = true
  /-- R44 item 6. -/
  enabledValid : s.enabled = true → s.cfgStale = false → s.bufsValid = true
  /-- "PAUSED is never 1 while ENABLED is 0" (R131). -/
  pausedEnabled : s.paused = true → s.enabled = true
  /-- FAULT_CODE is 0 while no fault is recorded (R145). -/
  noFaultCode : s.fault = false → s.faultCode = 0
  /-- Codes 7 to 15 are never produced (R145, I10), and a recorded fault has a code. -/
  faultCodes : s.fault = true → 1 ≤ s.faultCode.toNat ∧ s.faultCode.toNat ≤ 6
  /-- DRAIN_COUNT is the number of deliveries mod 2^32 (R36, R139). -/
  drained : s.drainCount = BitVec.ofNat 32 s.sink.length
  /-- Every event holds `2 * frames` samples (R41). -/
  blocks : ∀ e ∈ s.sink, e.samples.length = 2 * e.frames

/-! ### Runs -/

/-- The halted state (R148). -/
def halted (s : State) : Prop := s.fault = true

/-- No stop of the model and no hardware fault after `k` steps. -/
def safeRun (k : Nat) (s : State) : Prop :=
  match Host.Core.run Sys2Proof.core k s with
  | .next t => t.fault = false
  | .fault _ => False
  | .refused _ => False

/-- The commands of a list one after the other, as decoded words written to CMD with no access between them (R66). -/
def runCommands : List Instr → State → Host.Outcome State Fault Refusal
  | [], s => .next s
  | i :: is, s =>
    match exec i s with
    | .next t => runCommands is t
    | .fault r => .fault r
    | .refused r => .refused r

/-- A command that mixes or pushes and passes its size checks at the rate of `s` (R90, R101, R137). -/
def audioFits (s : State) : Instr → Prop
  | .mix n => n ≤ mixLen s.cfg s.fps
  | .push n => n ≤ mixLen s.cfg s.fps ∧ 2 * n ≤ cap s.cfg s.fps
  | .tick n => n ≤ mixLen s.cfg s.fps ∧ 2 * n ≤ cap s.cfg s.fps
  | _ => False

/-- The bytes a command copies into RING where it passes its checks (R106). -/
def bytesCopied : Instr → Nat
  | .push n => 2 * n
  | .tick n => 2 * n
  | _ => 0

/-- The concatenation of the bytes that a list of commands copies into RING, in order: each command's are the byte view
of the Mix Buffer as that command leaves it (R73, R107). -/
def ringStream : List Instr → State → List Byte
  | [], _ => []
  | i :: is, s =>
    match exec i s with
    | .next t => (List.range (bytesCopied i)).map (mbuf8 t) ++ ringStream is t
    | .fault _ => []
    | .refused _ => []

/-! ### Frames -/

/-- Every byte outside the `n` bytes from `lo` on reads in `t` as it reads in `s`. -/
def sameOutside (lo n : Nat) (s t : State) : Prop := ∀ a, a < lo ∨ lo + n ≤ a → byteAt t a = byteAt s a

/-- Every byte of memory reads in `t` as it reads in `s`. -/
def sameMemory (s t : State) : Prop := ∀ a, byteAt t a = byteAt s a

/-! ### What RESET leaves (R100) -/

/-- `t` is `s` after RESET's body: RING and the live Mix Buffer are zero, every other byte is as it was, the cursors are
placed, BUFS_VALID is set, CFG_STALE is cleared, and no other field changed. -/
structure ringCleared (s t : State) : Prop where
  /-- Every field but those RESET writes is as it was. -/
  frame : t = { s with
    mem := t.mem, rcur := t.rcur, wcur := t.wcur, bufsValid := t.bufsValid, cfgStale := t.cfgStale }
  /-- The read cursor. -/
  rcur : t.rcur.toNat = 0
  /-- The write cursor is OFFSET(S.FPS). -/
  wcur : t.wcur.toNat = (s.cfg.delay + baseBlock s.cfg s.fps) * 4
  /-- BUFS_VALID is set. -/
  valid : t.bufsValid = true
  /-- CFG_STALE is cleared. -/
  fresh : t.cfgStale = false
  /-- RING is zero. -/
  ring : ∀ b, b < cap s.cfg s.fps → ringAt t b = 0
  /-- The live Mix Buffer is zero. -/
  mixbuf : ∀ k, k < mixLen s.cfg s.fps → mixAt t k = 0
  /-- Every other byte is as it was. -/
  others : ∀ a, (a < ringBase ∨ ringBase + cap s.cfg s.fps ≤ a) →
    (a < mixBase ∨ mixBase + 2 * mixLen s.cfg s.fps ≤ a) → byteAt t a = byteAt s a

/-! ### The integer reading of the mix -/

/-- The clip on integers (R92). The PARITY value is PRESUMED, notes/assumptions/9.md. -/
def clipInt (mode : ClipMode) (m : Int) : Int :=
  if 32768 ≤ m then (match mode with | .saturate => 32767 | .parity => -32768)
  else if m < -32768 then -32768
  else m

/-- The aux term of the element `k` places after the cursor (R93, R96): 0 for the placeholder (R95). -/
def auxContribution (s : State) (k : Nat) : Int :=
  if s.auxEmpty then 0 else (auxAt s ((s.auxPos.toNat + k) % s.auxLen.toNat)).toInt

/-- What MIX must store at element `i` (R90, R92, R96). -/
def mixedValue (s : State) (i : Nat) : Int :=
  clipInt s.cfg.clipMode (auxContribution s i + (pcmAt s i).toInt + (synthAt s i).toInt)

/-! ### The ring's content law (R107) -/

/-- RING holds, at every index `p`, the last byte of the stream `bytes` (counted from the RESET) that went there, or 0
where none did. -/
def ringHolds (s : State) (bytes : List Byte) : Prop :=
  ∀ p, p < cap s.cfg s.fps →
    (∀ t, (h : t < bytes.length) → (offset s.cfg s.fps + t) % cap s.cfg s.fps = p →
      (∀ u, t < u → u < bytes.length → (offset s.cfg s.fps + u) % cap s.cfg s.fps ≠ p) → ringAt s p = bytes[t]) ∧
    ((∀ t, t < bytes.length → (offset s.cfg s.fps + t) % cap s.cfg s.fps ≠ p) → ringAt s p = 0)

end Sys2Proof.Machine
end

