-- ==== Sys2Proof/Certificates/Slice0/Obligations.lean ====
section
/-! DEFINITION. The statements for the provers. Each docstring names the rules of spec/ that its statement formalises. -/

open Sys2Proof Sys2Proof.Machine

/-! ### Encoding (30_encoding.md) -/

/-- R76, R78, R82: the decoder reads back every well-formed command from its encoded word. -/
def Obligations.DecodeOfEncodeIsIdentity : Prop :=
  ∀ i : Instr, i.wellFormed = true → decode (encode i) = .command i

/-- R76, R82: a word that decodes to a command is that command's own encoding, so no two words are one command. -/
def Obligations.EncodeOfDecodeIsIdentity : Prop :=
  ∀ (w : Word) (i : Instr), decode w = .command i → i.wellFormed = true ∧ encode i = w

/-- R79, R80, R82: the illegal words are exactly those of a reserved opcode and those with a nonzero ARG where it must
be 0. -/
def Obligations.IllegalWordsAreExactlyTheReservedOnes : Prop :=
  ∀ w : Word, (∃ why, decode w = .illegal why) ↔
    12 ≤ w.toNat % 256 ∨ (w.toNat % 256 ∈ [0, 1, 2, 3, 4, 6, 11] ∧ w.toNat / 256 ≠ 0)

/-- R79: a reserved opcode raises ILLEGAL_CMD and has no other effect. -/
def Obligations.ReservedOpcodeRaisesIllegalCmd : Prop :=
  ∀ (w : Word) (s : State), s.fault = false → 12 ≤ w.toNat % 256 →
    execute w s = .next { s with fault := true, faultCode := 1 }

/-- R80: a nonzero ARG on a command without operand raises ILLEGAL_CMD and has no other effect. -/
def Obligations.NonzeroArgRaisesIllegalCmd : Prop :=
  ∀ (w : Word) (s : State), s.fault = false → w.toNat % 256 ∈ [0, 1, 2, 3, 4, 6, 11] → w.toNat / 256 ≠ 0 →
    execute w s = .next { s with fault := true, faultCode := 1 }

/-- R83: words the spec spells out decode to the commands it says they are. -/
def Obligations.SpelledOutWordsDecode : Prop :=
  decode 0x00000809 = .command (.tick 8) ∧ decode 0x00003C05 = .command (.setFps 60) ∧
  decode 0x0000030A = .command (.auxLoad 3) ∧ decode 0x0005BE09 = .command (.tick 1470) ∧
  decode 0x00000207 = .command (.mix 2) ∧ decode 0x00000808 = .command (.push 8) ∧
  decode 0x00000006 = .command .reset ∧ decode 0x0000000B = .command .auxClear

/-- R83: the assembler gives every legal line of the twelve commands its word `(operand << 8) | OP`, with the opcode of
R78, which decodes to that command; it gives no other word than a command's, and it rejects an operand above 16777215
and an operand on a command of R80. The last clause is the rule's own examples. -/
def Obligations.AssembledWordIsTheCommand : Prop :=
  (∀ v : Nat, v ≤ 16777215 →
    (∃ w, assemble .SET_FPS (some v) = some w ∧ w.toNat = v * 256 + 5 ∧ decode w = .command (.setFps v)) ∧
    (∃ w, assemble .MIX (some v) = some w ∧ w.toNat = v * 256 + 7 ∧ decode w = .command (.mix v)) ∧
    (∃ w, assemble .PUSH (some v) = some w ∧ w.toNat = v * 256 + 8 ∧ decode w = .command (.push v)) ∧
    (∃ w, assemble .TICK (some v) = some w ∧ w.toNat = v * 256 + 9 ∧ decode w = .command (.tick v)) ∧
    (∃ w, assemble .AUX_LOAD (some v) = some w ∧ w.toNat = v * 256 + 10 ∧ decode w = .command (.auxLoad v))) ∧
  (assemble .NOP none = some 0 ∧ decode 0 = .command .nop) ∧
  (assemble .ENABLE none = some 1 ∧ decode 1 = .command .enable) ∧
  (assemble .DISABLE none = some 2 ∧ decode 2 = .command .disable) ∧
  (assemble .PAUSE none = some 3 ∧ decode 3 = .command .pause) ∧
  (assemble .RESUME none = some 4 ∧ decode 4 = .command .resume) ∧
  (assemble .RESET none = some 6 ∧ decode 6 = .command .reset) ∧
  (assemble .AUX_CLEAR none = some 11 ∧ decode 11 = .command .auxClear) ∧
  (∀ (m : Mnemonic) (operand : Option Nat) (w : Word), assemble m operand = some w →
    ∃ i, m.command operand = some i ∧ decode w = .command i ∧ w.toNat = i.operand * 256 + i.opcode.toNat) ∧
  (∀ (m : Mnemonic) (v : Nat), 16777215 < v → assemble m (some v) = none) ∧
  (∀ (m : Mnemonic) (v : Nat), m ∈ [Mnemonic.NOP, .ENABLE, .DISABLE, .PAUSE, .RESUME, .RESET, .AUX_CLEAR] →
    assemble m (some v) = none) ∧
  assembleLine ['T', 'I', 'C', 'K', ' ', '8'] = some 0x00000809 ∧
  assembleLine ['S', 'E', 'T', '_', 'F', 'P', 'S', ' ', '6', '0'] = some 0x00003C05 ∧
  assembleLine ['A', 'U', 'X', '_', 'L', 'O', 'A', 'D', ' ', '3'] = some 0x0000030A ∧
  assembleLine ['T', 'I', 'C', 'K', ' ', '1', '4', '7', '0'] = some 0x0005BE09

/-! ### Steps -/

/-- R37, R75, R85: where the next event is a 32-bit write to CMD of a word that decodes to a command and the block is not
halted, the step is that command on the state that has taken the event off its list; `withFetchWord` places such an
event, and so does the pseudo-instruction of a well-formed command. -/
def Obligations.StepRunsTheDecodedCommand : Prop :=
  (∀ (s : State) (rest : List HostEvent) (w : Word) (i : Instr), configWf s.cfg = true → s.fault = false →
    s.pending = .write 4 s.cfg.base w :: rest → decode w = .command i →
    step s = exec i { s with pending := rest }) ∧
  (∀ (s : State) (w : Word) (i : Instr), configWf s.cfg = true → s.fault = false → decode w = .command i →
    step (s.withFetchWord 32 w.toNat) = exec i s) ∧
  (∀ (s : State) (rest : List HostEvent) (i : Instr), configWf s.cfg = true → s.fault = false → i.wellFormed = true →
    s.pending = expand s.cfg (.command i) :: rest → step s = exec i { s with pending := rest })

/-- R11, R19, R50: a step stops only on a configuration that is not well-formed or on an address outside the block's
window (the two stops are the model's own form, notes/assumptions/7.md and notes/assumptions/8.md); with nothing pending
it changes nothing. -/
def Obligations.StepStopsOnlyOutsideTheSpec : Prop :=
  (∀ s : State, configWf s.cfg = true →
    (∀ n addr rest, s.pending = .read n addr :: rest → s.cfg.base ≤ addr ∧ addr < s.cfg.base + 16777216) →
    (∀ n addr v rest, s.pending = .write n addr v :: rest → s.cfg.base ≤ addr ∧ addr < s.cfg.base + 16777216) →
    ∃ t, step s = .next t ∧ (s.pending = [] → t = s)) ∧
  (∀ s : State, configWf s.cfg = false → step s = .refused .illFormedConfig)

/-- R7: no step changes the configuration. -/
def Obligations.ConfigurationIsFixed : Prop :=
  ∀ s t : State, step s = .next t → t.cfg = s.cfg

/-- R148: while halted, `Execute` of any word changes no state; the step of a write to CMD, to any other offset outside
the input windows and AUX_RAM, or of an illegal write changes nothing but the list of events; a read changes no byte and
no field but the model's own; a legal write to PCM_IN, SYNTH_IN or AUX_RAM takes effect on the bytes it covers and
changes no other byte and no other field. So FAULT and FAULT_CODE stay on every event but power-on reset. -/
def Obligations.HaltedBlockKeepsItsState : Prop :=
  (∀ (w : Word) (s : State), s.fault = true → execute w s = .next s) ∧
  ∀ (s t : State) (rest : List HostEvent), s.fault = true → step s = .next t →
    (∀ n addr, s.pending = .read n addr :: rest →
      t = { s with anyCount := t.anyCount, readLog := t.readLog, pending := rest }) ∧
    (∀ n off v, s.pending = .write n (s.cfg.base + off) v :: rest →
      t = { s with mem := t.mem, pending := rest } ∧ sameOutside off n s t ∧
      (accessOk s off n = false ∨ off < 0x010000 ∨ (0x030000 ≤ off ∧ off < 0x800000) →
        t = { s with pending := rest }) ∧
      (accessOk s off n = true → (0x010000 ≤ off ∧ off < 0x030000) ∨ 0x800000 ≤ off →
        ∀ j, j < n → byteAt t (off + j) = v.extractLsb' (8 * j) 8))

/-! ### The invariant and reset -/

/-- R45, R167: the state right after power-on reset, in every configuration; STATUS reads 8. -/
def Obligations.PowerOnStateIsTheTable : Prop :=
  State.reset = State.powerOn State.reset.cfg ∧
  ∀ c : Config, let s := State.powerOn c
    s.enabled = false ∧ s.paused = false ∧ s.cfgStale = false ∧ s.bufsValid = false ∧ s.fps = .fps60 ∧
    s.wcur = 0 ∧ s.rcur = 0 ∧ s.auxEmpty = true ∧ s.auxLen = 1 ∧ s.auxPos = 0 ∧ s.auxErr = false ∧
    s.fault = false ∧ s.faultCode = 0 ∧ s.drainCount = 0 ∧ s.sink = [] ∧ statusWord s = 8

/-- R45, R165: the power-on reset event gives every field its value of the table, empties SINK, makes the RAM's bytes
unspecified again and runs no command (that the configuration, the events still to come and the record of reads stay is
the model's choice, notes/assumptions/11.md). -/
def Obligations.PowerOnResetEventClearsTheBlock : Prop :=
  ∀ (s : State) (rest : List HostEvent), configWf s.cfg = true → s.pending = .powerOnReset :: rest →
    ∃ t, step s = .next t ∧
      t = { State.powerOn s.cfg with
              epoch := s.epoch + 1, anyCount := s.anyCount, readLog := s.readLog, pending := rest } ∧
      statusWord t = 8 ∧
      ∀ k, k < s.cfg.streamMax →
        byteAt t (pcmBase + 2 * k) = Config.powerOnByte (s.epoch + 1) (pcmBase + 2 * k)

/-- R44: the invariant holds after power-on reset of every well-formed configuration. -/
def Obligations.InvariantHoldsAtReset : Prop :=
  (∀ c : Config, configWf c = true → Inv (State.powerOn c)) ∧ Inv State.reset

/-- R44: every step keeps the invariant. -/
def Obligations.EveryStepKeepsTheInvariant : Prop :=
  ∀ s t : State, Inv s → step s = .next t → Inv t

/-! ### Lifecycle (43_lifecycle.md) -/

/-- R126: NOP changes nothing; its word is 0; a nonzero ARG is illegal; a halted block ignores it. -/
def Obligations.NopChangesNothing : Prop :=
  (∀ s : State, exec .nop s = .next s) ∧ encode .nop = 0 ∧
  (∀ (s : State) (w : Word), s.fault = false → w.toNat % 256 = 0 → w.toNat / 256 ≠ 0 →
    execute w s = .next (raiseFault .illegalCmd s)) ∧
  (∀ s : State, s.fault = true → execute 0 s = .next s)

/-- R127, R128: ENABLE sets ENABLED, clears PAUSED and leaves what RESET leaves, whatever the state before. -/
def Obligations.EnableRestartsFromACleanRing : Prop :=
  ∀ s : State, configWf s.cfg = true →
    ∃ t, exec .enable s = .next t ∧ ringCleared { s with enabled := true, paused := false } t

/-- R129, R130: DISABLE clears the four flags and nothing else, and MIX, PUSH, TICK and RESET then do nothing. -/
def Obligations.DisableSilencesTheBlock : Prop :=
  ∀ s : State, ∃ t, exec .disable s = .next t ∧
    t = { s with enabled := false, paused := false, cfgStale := false, bufsValid := false } ∧
    ∀ n, exec (.mix n) t = .next t ∧ exec (.push n) t = .next t ∧ exec (.tick n) t = .next t ∧
      exec .reset t = .next t

/-- R131, R132: PAUSE sets PAUSED while enabled and is a no-op while disabled; while paused MIX, PUSH and TICK change
nothing. -/
def Obligations.PauseKeepsTheBuffers : Prop :=
  ∀ s : State, ∃ t, exec .pause s = .next t ∧
    (s.enabled = true → t = { s with paused := true } ∧
      ∀ n, exec (.mix n) t = .next t ∧ exec (.push n) t = .next t ∧ exec (.tick n) t = .next t) ∧
    (s.enabled = false → t = s)

/-- R133: RESUME clears PAUSED and leaves what RESET leaves, paused or not; a no-op while disabled. -/
def Obligations.ResumeRestartsTheRing : Prop :=
  ∀ s : State, configWf s.cfg = true →
    (s.enabled = true → ∃ t, exec .resume s = .next t ∧ ringCleared { s with paused := false } t) ∧
    (s.enabled = false → exec .resume s = .next s)

/-- R135: SET_FPS raises BAD_FPS for a rate that is not legal, is a no-op for the current one, and otherwise changes
FPS, leaving a RESET owed and the buffers undefined if enabled. -/
def Obligations.SetFpsChangesTheRate : Prop :=
  ∀ (v : Nat) (s : State),
    (v ≠ 30 → v ≠ 60 → v ≠ 120 → exec (.setFps v) s = .next (raiseFault .badFps s)) ∧
    (v = fpsNat s.fps → exec (.setFps v) s = .next s) ∧
    (∀ f, v = fpsNat f → f ≠ s.fps → s.enabled = true →
      exec (.setFps v) s = .next { s with fps := f, cfgStale := true, bufsValid := false }) ∧
    (∀ f, v = fpsNat f → f ≠ s.fps → s.enabled = false → exec (.setFps v) s = .next { s with fps := f })

/-- R30: only SET_FPS writes FPS. -/
def Obligations.OnlySetFpsChangesTheRate : Prop :=
  ∀ (i : Instr) (s t : State), (∀ v, i ≠ .setFps v) → exec i s = .next t → t.fps = s.fps

/-- R171, R178: after a rate change while enabled, an active MIX, PUSH or TICK raises CFG_STALE, and a RESET gives zeroed
buffers of the new size with the cursors placed for the new rate. -/
def Obligations.RateChangeNeedsAReset : Prop :=
  ∀ (f : Fps) (s : State), configWf s.cfg = true → s.enabled = true → f ≠ s.fps →
    ∃ t u, exec (.setFps (fpsNat f)) s = .next t ∧ t.fps = f ∧
      (s.paused = false → ∀ n, exec (.mix n) t = .next (raiseFault .cfgStale t) ∧
        exec (.push n) t = .next (raiseFault .cfgStale t) ∧ exec (.tick n) t = .next (raiseFault .cfgStale t)) ∧
      exec .reset t = .next u ∧ ringCleared t u ∧ u.fps = f

/-- R138: a TICK that passes its checks is MIX followed at once by PUSH. -/
def Obligations.TickIsMixThenPush : Prop :=
  ∀ (n : Nat) (s : State), active s = true → s.cfgStale = false → n ≤ mixLen s.cfg s.fps → 2 * n ≤ cap s.cfg s.fps →
    ∃ m t, exec (.mix n) s = .next m ∧ exec (.push n) m = .next t ∧ exec (.tick n) s = .next t

/-- R105, R111, R137: TICK delivers one block of FRAMES(S.FPS) frames, its first N samples the mixed values and the
rest the older Mix Buffer; it writes MIXBUF, AUX_POS, RING, the cursors, SINK and DRAIN_COUNT alone.
The value of an overflow in PARITY mode, -32768, is PRESUMED
(notes/assumptions/9.md; R9 and R92 mark it as general knowledge). -/
def Obligations.TickDeliversTheMixedBlock : Prop :=
  ∀ (n : Nat) (s : State), Inv s → active s = true → s.cfgStale = false → n ≤ mixLen s.cfg s.fps →
    2 * n ≤ cap s.cfg s.fps →
    ∃ t block, exec (.tick n) s = .next t ∧
      t = { s with mem := t.mem, auxPos := t.auxPos, wcur := t.wcur, rcur := t.rcur, sink := t.sink,
                   drainCount := s.drainCount + 1 } ∧
      t.sink = s.sink ++ [⟨frames s.cfg s.fps, block⟩] ∧ block.length = 2 * frames s.cfg s.fps ∧
      (∀ i, (h : i < block.length) → i < n → block[i].toInt = mixedValue s i) ∧
      (∀ i, (h : i < block.length) → n ≤ i → block[i] = mixAt s i) ∧
      t.auxPos.toNat = (s.auxPos.toNat + n) % s.auxLen.toNat ∧
      (∀ a, (a < mixBase ∨ mixBase + 2 * n ≤ a) →
        (∀ j, j < 2 * n → a ≠ ringBase + (s.wcur.toNat + j) % cap s.cfg s.fps) → byteAt t a = byteAt s a)

/-! ### Gating and faults (43_lifecycle.md, 60_exceptions.md) -/

/-- R125: MIX, PUSH and TICK do nothing unless the block is active, and RESET nothing unless it is enabled. -/
def Obligations.InactiveBlockDoesNothing : Prop :=
  ∀ s : State,
    (s.enabled = false ∨ s.paused = true → ∀ n,
      exec (.mix n) s = .next s ∧ exec (.push n) s = .next s ∧ exec (.tick n) s = .next s) ∧
    (s.enabled = false → exec .reset s = .next s)

/-- R90, R101, R137, R147: an active command whose checks fail raises the first fault of the order CFG_STALE,
STREAM_TOO_LONG, RING_OVERRUN, and has no other effect; MIX has no RING_OVERRUN check. -/
def Obligations.AudioFaultsInOrder : Prop :=
  ∀ (n : Nat) (s : State), s.enabled = true → s.paused = false →
    (s.cfgStale = true → ∀ i ∈ [Instr.mix n, .push n, .tick n], exec i s = .next (raiseFault .cfgStale s)) ∧
    (s.cfgStale = false → mixLen s.cfg s.fps < n →
      ∀ i ∈ [Instr.mix n, .push n, .tick n], exec i s = .next (raiseFault .streamTooLong s)) ∧
    (s.cfgStale = false → n ≤ mixLen s.cfg s.fps → cap s.cfg s.fps < 2 * n →
      ∀ i ∈ [Instr.push n, .tick n], exec i s = .next (raiseFault .ringOverrun s))

/-- R145, R146: `raise Fault(code)` writes FAULT and the code's number while no fault is recorded, and nothing else; the
first fault's code is kept, since a later raise changes nothing. -/
def Obligations.FirstFaultIsKept : Prop :=
  ∀ (c : FaultCode) (s : State),
    (s.fault = false → raiseFault c s = { s with fault := true, faultCode :=
      match c with
      | .illegalCmd => 1
      | .badFps => 2
      | .cfgStale => 3
      | .streamTooLong => 4
      | .ringOverrun => 5
      | .busError => 6 }) ∧
    (s.fault = true → raiseFault c s = s)

/-- R36, R139: a PUSH or TICK that is active and raises no fault emits exactly one sink event and counts it; no other
command emits any. -/
def Obligations.OneEventPerDelivery : Prop :=
  ∀ (i : Instr) (s t : State), s.fault = false → exec i s = .next t →
    ((∃ n, i = .push n ∨ i = .tick n) → active s = true → t.fault = false →
      (∃ e, t.sink = s.sink ++ [e]) ∧ t.drainCount = s.drainCount + 1) ∧
    ((∀ n, i ≠ .push n ∧ i ≠ .tick n) ∨ active s = false ∨ t.fault = true →
      t.sink = s.sink ∧ t.drainCount = s.drainCount)

/-- R41, R70: SINK only grows, by at most one event a step, and an event once emitted never changes; only power-on
reset empties it. -/
def Obligations.SinkIsAppendOnly : Prop :=
  ∀ s t : State, (∀ rest, s.pending ≠ .powerOnReset :: rest) → step s = .next t →
    ∃ es, t.sink = s.sink ++ es ∧ es.length ≤ 1

/-- R159: of all commands only ENABLE leaves the disabled state, and only RESUME or ENABLE makes a paused block active. -/
def Obligations.IdleStatesAreLeftByTheirCommands : Prop :=
  ∀ (i : Instr) (s t : State), exec i s = .next t →
    (s.enabled = false → t.enabled = true → i = .enable) ∧
    (s.enabled = true → s.paused = true → active t = true → i = .enable ∨ i = .resume)

/-! ### The Mix Stage (40_mix_stage.md) -/

/-- R90 to R94, R96: an active MIX of N elements stores in each the clipped exact sum of its three terms, moves the aux
cursor N places around the clip, and changes nothing else. The value of an overflow in PARITY mode, -32768, is PRESUMED
(notes/assumptions/9.md; R9 and R92 mark it as general knowledge). -/
def Obligations.MixStoresTheClippedSums : Prop :=
  ∀ (n : Nat) (s : State), active s = true → s.cfgStale = false → n ≤ mixLen s.cfg s.fps →
    s.auxPos.toNat < s.auxLen.toNat →
    ∃ t, exec (.mix n) s = .next t ∧ t = { s with mem := t.mem, auxPos := t.auxPos } ∧
      (∀ i, i < n → (mixAt t i).toInt = mixedValue s i) ∧
      t.auxPos.toNat = (s.auxPos.toNat + n) % s.auxLen.toNat ∧
      sameOutside mixBase (2 * n) s t

/-- R95: while the clip is the silent placeholder, every element is the clipped sum of the two streams, whatever AUX_RAM
holds, and AUX_POS stays 0. The value of an overflow in PARITY mode, -32768, is PRESUMED
(notes/assumptions/9.md; R9 and R92 mark it as general knowledge). -/
def Obligations.PlaceholderIsSilent : Prop :=
  ∀ (n : Nat) (s : State), Inv s → s.auxEmpty = true → active s = true → s.cfgStale = false →
    n ≤ mixLen s.cfg s.fps →
    ∃ t, exec (.mix n) s = .next t ∧ t.auxPos = 0 ∧
      ∀ i, i < n → (mixAt t i).toInt = clipInt s.cfg.clipMode ((pcmAt s i).toInt + (synthAt s i).toInt)

/-- R96: element i of a mix depends on no more than PCM_IN[i], SYNTH_IN[i], the aux sample at the cursor's place and
the clip mode. -/
def Obligations.MixIsElementwise : Prop :=
  ∀ (n m i : Nat) (s₁ s₂ t₁ t₂ : State), i < n → i < m →
    active s₁ = true → active s₂ = true → t₁.fault = false → t₂.fault = false →
    s₁.auxPos.toNat < s₁.auxLen.toNat → s₂.auxPos.toNat < s₂.auxLen.toNat →
    s₁.cfg.clipMode = s₂.cfg.clipMode → pcmAt s₁ i = pcmAt s₂ i → synthAt s₁ i = synthAt s₂ i →
    auxTerm s₁ ((s₁.auxPos.toNat + i) % s₁.auxLen.toNat) = auxTerm s₂ ((s₂.auxPos.toNat + i) % s₂.auxLen.toNat) →
    exec (.mix n) s₁ = .next t₁ → exec (.mix m) s₂ = .next t₂ → mixAt t₁ i = mixAt t₂ i

/-- R93, R97: across a run of MIX commands the aux cursor moves one place per element, modulo the clip's length, so it
returns to its place after as many elements as the clip has; every command of the run completes. -/
def Obligations.AuxCursorLoopsAcrossMixes : Prop :=
  ∀ (ns : List Nat) (s : State), active s = true → s.cfgStale = false →
    (∀ n ∈ ns, n ≤ mixLen s.cfg s.fps) → s.auxPos.toNat < s.auxLen.toNat →
    ∃ t, runCommands (ns.map .mix) s = .next t ∧
      t = { s with mem := t.mem, auxPos := t.auxPos } ∧
      t.auxPos.toNat = (s.auxPos.toNat + ns.sum) % s.auxLen.toNat ∧
      (ns.sum = s.auxLen.toNat → t.auxPos = s.auxPos) ∧
      ∀ a, (a < mixBase ∨ mixBase + 2 * mixLen s.cfg s.fps ≤ a) → byteAt t a = byteAt s a

/-! ### The Delivery Ring (41_delivery_ring.md) -/

/-- R100: RESET zeroes RING and the live Mix Buffer, places the cursors, sets BUFS_VALID and clears CFG_STALE, and writes
nothing else; paused or stale or not. -/
def Obligations.ResetClearsTheRing : Prop :=
  ∀ s : State, configWf s.cfg = true → s.enabled = true → ∃ t, exec .reset s = .next t ∧ ringCleared s t

/-- R101 to R107, R111: PUSH copies the first 2N bytes of the Mix Buffer to the ring from the write cursor on, modulo
the capacity, advances both cursors with at most one drift correction, and delivers the whole live Mix Buffer;
nothing else changes. -/
def Obligations.PushCopiesAndDelivers : Prop :=
  ∀ (n : Nat) (s : State), Inv s → active s = true → s.cfgStale = false → n ≤ mixLen s.cfg s.fps →
    2 * n ≤ cap s.cfg s.fps →
    ∃ t, exec (.push n) s = .next t ∧
      t = { s with mem := t.mem, wcur := t.wcur, rcur := t.rcur, sink := t.sink, drainCount := s.drainCount + 1 } ∧
      t.rcur.toNat = (if cap s.cfg s.fps < s.rcur.toNat + 2 * n then s.rcur.toNat + 2 * n - cap s.cfg s.fps
        else s.rcur.toNat + 2 * n) ∧
      (t.wcur.toNat : Int) - t.rcur.toNat = (s.wcur.toNat : Int) - s.rcur.toNat ∧
      t.wcur.toNat % cap s.cfg s.fps = (s.wcur.toNat + 2 * n) % cap s.cfg s.fps ∧
      (∀ k, k < n →
        ringAt t ((s.wcur.toNat + 2 * k) % cap s.cfg s.fps) = (mixAt s k).extractLsb' 0 8 ∧
        ringAt t ((s.wcur.toNat + (2 * k + 1)) % cap s.cfg s.fps) = (mixAt s k).extractLsb' 8 8) ∧
      (∀ a, (∀ j, j < 2 * n → a ≠ ringBase + (s.wcur.toNat + j) % cap s.cfg s.fps) → byteAt t a = byteAt s a) ∧
      t.sink = s.sink ++ [⟨frames s.cfg s.fps, (List.range (2 * frames s.cfg s.fps)).map (mixAt s)⟩]

/-- R110: the closed form of the cursors after any run of MIX, PUSH and TICK commands since a RESET. -/
def Obligations.CursorsHaveAClosedForm : Prop :=
  ∀ (is : List Instr) (r : State), Inv r → active r = true → (∀ i ∈ is, audioFits r i) →
    ∃ s t, exec .reset r = .next s ∧ runCommands is s = .next t ∧
      t.rcur.toNat = (if (is.map bytesCopied).sum = 0 then 0
        else ((is.map bytesCopied).sum - 1) % cap r.cfg r.fps + 1) ∧
      t.wcur.toNat = t.rcur.toNat + offset r.cfg r.fps ∧
      t.wcur.toNat % cap r.cfg r.fps = (offset r.cfg r.fps + (is.map bytesCopied).sum) % cap r.cfg r.fps

/-- R107: after any run of MIX, PUSH and TICK commands since a RESET, RING byte p is the last byte of the copied stream
that falls on p modulo the capacity, or 0 where none does. -/
def Obligations.RingContentLaw : Prop :=
  ∀ (is : List Instr) (r : State), Inv r → active r = true → (∀ i ∈ is, audioFits r i) →
    ∃ s t, exec .reset r = .next s ∧ runCommands is s = .next t ∧ ringHolds t (ringStream is s)

/-! ### The Auxiliary Clip (42_aux_clip.md) -/

/-- R115, R116: a load fails exactly when L is 0 or above P_AUX_MAX, and then only AUX_ERR changes; otherwise it
commits the length, restarts the cursor and clears AUX_EMPTY and AUX_ERR, and changes nothing else. -/
def Obligations.AuxLoadCommitsALength : Prop :=
  ∀ (l : Nat) (s : State), configWf s.cfg = true →
    (l = 0 ∨ s.cfg.auxMax < l → exec (.auxLoad l) s = .next { s with auxErr := true }) ∧
    (1 ≤ l → l ≤ s.cfg.auxMax → ∃ t, exec (.auxLoad l) s = .next t ∧ t.auxLen.toNat = l ∧
      t = { s with auxLen := t.auxLen, auxPos := 0, auxEmpty := false, auxErr := false })

/-- R118, R119: AUX_CLEAR restores the placeholder and changes nothing else, and a following active MIX adds no aux
term. The value of an overflow in PARITY mode, -32768, is PRESUMED
(notes/assumptions/9.md; R9 and R92 mark it as general knowledge). -/
def Obligations.AuxClearRestoresTheSilentClip : Prop :=
  ∀ s : State, ∃ t, exec .auxClear s = .next t ∧
    t = { s with auxEmpty := true, auxLen := 1, auxPos := 0, auxErr := false } ∧
    ∀ n, active s = true → s.cfgStale = false → n ≤ mixLen s.cfg s.fps →
      ∃ u, exec (.mix n) t = .next u ∧
        ∀ i, i < n → (mixAt u i).toInt = clipInt s.cfg.clipMode ((pcmAt s i).toInt + (synthAt s i).toInt)

/-- R120: no command but AUX_LOAD, AUX_CLEAR, MIX and TICK changes the clip's fields. -/
def Obligations.ClipIsIndependentOfTheLifecycle : Prop :=
  ∀ (i : Instr) (s t : State), (∀ l, i ≠ .auxLoad l) → i ≠ .auxClear → (∀ n, i ≠ .mix n) → (∀ n, i ≠ .tick n) →
    exec i s = .next t →
    t.auxLen = s.auxLen ∧ t.auxPos = s.auxPos ∧ t.auxEmpty = s.auxEmpty ∧ t.auxErr = s.auxErr

/-! ### The bus (20_memory.md) -/

/-- R51, R52, R55 to R58: the accesses that raise no BUS_ERROR, window by window. -/
def Obligations.LegalAccessesAreTheWindows : Prop :=
  ∀ (s : State) (off n : Nat), configWf s.cfg = true →
    (accessOk s off n = true ↔
      (n = 1 ∨ n = 2 ∨ n = 4) ∧ off % n = 0 ∧
      ((n = 4 ∧ off + 4 ≤ 0x02C) ∨
       (0x010000 ≤ off ∧ off + n ≤ 0x010000 + 2 * s.cfg.streamMax) ∨
       (0x020000 ≤ off ∧ off + n ≤ 0x020000 + 2 * s.cfg.streamMax) ∨
       (0x030000 ≤ off ∧ off + n ≤ 0x030000 + 2 * mixLen s.cfg .fps30) ∨
       (0x040000 ≤ off ∧ off + n ≤ 0x040000 + cap s.cfg s.fps) ∨
       (0x800000 ≤ off ∧ off + n ≤ 0x800000 + 2 * s.cfg.auxMax)))

/-- R58: a bus error raises BUS_ERROR, changes nothing else of the block, and a read returns a free value of its
width. -/
def Obligations.BusErrorHasNoOtherEffect : Prop :=
  ∀ (s : State) (off n : Nat) (v : Word), accessOk s off n = false →
    memWrite n off v s = .next (raiseFault .busError s) ∧
    (memRead n off s).2 = { raiseFault .busError s with anyCount := s.anyCount + 1 } ∧
    (memRead n off s).1 = Config.anyRead s.anyCount % 2 ^ (8 * n)

/-- R53, R55, R65: a legal write to PCM_IN, SYNTH_IN or AUX_RAM replaces exactly the bytes it covers, little-endian, and
a read of the same bytes returns what was written; also while halted (R148). -/
def Obligations.DataWriteThenRead : Prop :=
  ∀ (s : State) (off n : Nat) (v : Word), accessOk s off n = true →
    region off = .pcmIn ∨ region off = .synthIn ∨ region off = .auxRam →
    ∃ t, memWrite n off v s = .next t ∧ t = { s with mem := t.mem } ∧
      (∀ j, j < n → byteAt t (off + j) = v.extractLsb' (8 * j) 8) ∧ sameOutside off n s t ∧
      memRead n off t = (v.toNat % 2 ^ (8 * n), t)

/-- R52, R56: a legal write to a register other than CMD, to MIXBUF or to RING is ignored. -/
def Obligations.ReadOnlyWindowsIgnoreWrites : Prop :=
  ∀ (s : State) (off n : Nat) (v : Word), accessOk s off n = true →
    (region off = .regs ∧ off ≠ 0) ∨ region off = .mixbuf ∨ region off = .ring → memWrite n off v s = .next s

/-- R56, R61: a legal read changes nothing, but for the two exceptions of R56, a read of MIXBUF or RING while
BUFS_VALID = 0 and a read of MIXBUF at or above MIXLEN, which return a free value of their width and change the model's
draw count alone (notes/assumptions/5.md). -/
def Obligations.ReadsHaveNoSideEffects : Prop :=
  ∀ (s : State) (off n : Nat), accessOk s off n = true →
    (off < 0x030000 ∨ 0x080000 ≤ off → (memRead n off s).2 = s) ∧
    (0x030000 ≤ off → off < 0x040000 → s.bufsValid = true → off + n ≤ 0x030000 + 2 * mixLen s.cfg s.fps →
      (memRead n off s).2 = s) ∧
    (0x040000 ≤ off → off < 0x080000 → s.bufsValid = true → (memRead n off s).2 = s) ∧
    (0x030000 ≤ off → off < 0x080000 → s.bufsValid = false →
      (memRead n off s).2 = { s with anyCount := s.anyCount + 1 } ∧
      (memRead n off s).1 = Config.anyRead s.anyCount % 2 ^ (8 * n)) ∧
    (off < 0x040000 → 0x030000 + 2 * mixLen s.cfg s.fps ≤ off →
      (memRead n off s).2 = { s with anyCount := s.anyCount + 1 } ∧
      (memRead n off s).1 = Config.anyRead s.anyCount % 2 ^ (8 * n))

/-- R72: a 4-byte read of an int16 window returns two elements, a 1-byte read at an odd byte the high byte of its
element, and a 4-byte RING read four bytes, each little-endian. For MIXBUF and RING where R56 defines the read:
BUFS_VALID = 1 and, in MIXBUF, elements below MIXLEN. Each window but AUX_RAM has room for 32768 elements (R51). -/
def Obligations.MixedWidthReads : Prop :=
  ∀ s : State,
    (∀ base ∈ [pcmBase, synthBase, mixBase, auxBase], ∀ k, accessOk s (base + 2 * k) 4 = true →
      (base ≠ auxBase → k < 32768) →
      (base = mixBase → s.bufsValid = true ∧ k + 2 ≤ mixLen s.cfg s.fps) →
      (memRead 4 (base + 2 * k) s).1 = (elemAt s base (k + 1) ++ elemAt s base k).toNat) ∧
    (∀ base ∈ [pcmBase, synthBase, mixBase, auxBase], ∀ k, accessOk s (base + 2 * k + 1) 1 = true →
      (base ≠ auxBase → k < 32768) →
      (base = mixBase → s.bufsValid = true ∧ k + 1 ≤ mixLen s.cfg s.fps) →
      (memRead 1 (base + 2 * k + 1) s).1 = ((elemAt s base k).extractLsb' 8 8).toNat) ∧
    (∀ b, accessOk s (ringBase + b) 4 = true → s.bufsValid = true →
      (memRead 4 (ringBase + b) s).1 =
        (ringAt s (b + 3) ++ ringAt s (b + 2) ++ ringAt s (b + 1) ++ ringAt s b).toNat)

/-- R24: where each field stands in STATUS; every other bit reads 0. -/
def Obligations.StatusFieldsStandInTheirBits : Prop :=
  ∀ s : State, let w := statusWord s
    w.getLsbD 0 = s.enabled ∧ w.getLsbD 1 = s.paused ∧ w.getLsbD 2 = s.cfgStale ∧ w.getLsbD 3 = s.auxEmpty ∧
    w.getLsbD 4 = s.auxErr ∧ w.getLsbD 5 = s.bufsValid ∧ w.getLsbD 6 = false ∧ w.getLsbD 7 = s.fault ∧
    w.extractLsb' 8 4 = s.faultCode ∧ (∀ i, 12 ≤ i → w.getLsbD i = false) ∧
    memRead 4 0x004 s = (w.toNat, s)

/-- R23, R31: what each register reads, with no side effect. -/
def Obligations.RegistersReadTheirValues : Prop :=
  ∀ s : State, configWf s.cfg = true →
    memRead 4 0x000 s = (0, s) ∧
    memRead 4 0x008 s = (fpsNat s.fps, s) ∧
    memRead 4 0x00C s = (2 * (s.cfg.sampleRate / fpsNat s.fps), s) ∧
    memRead 4 0x010 s = (s.cfg.sampleRate / fpsNat s.fps, s) ∧
    memRead 4 0x014 s = (4 * (baseBlock s.cfg s.fps * s.cfg.fragments + s.cfg.delay), s) ∧
    memRead 4 0x018 s = (s.wcur.toNat, s) ∧
    memRead 4 0x01C s = (s.rcur.toNat, s) ∧
    memRead 4 0x020 s = (s.auxLen.toNat, s) ∧
    memRead 4 0x024 s = (s.auxPos.toNat, s) ∧
    memRead 4 0x028 s = (s.drainCount.toNat, s)

/-- R84, R85: the step of a PCM, SYN or AUX pseudo-instruction within the window stores the sample as that element and
changes no other byte. -/
def Obligations.SamplePseudosStoreTheElement : Prop :=
  ∀ (s : State) (k : Nat) (x : Sample) (rest : List HostEvent), configWf s.cfg = true →
    (s.pending = expand s.cfg (.pcm k x) :: rest → k < s.cfg.streamMax →
      ∃ t, step s = .next t ∧ pcmAt t k = x ∧ t = { s with mem := t.mem, pending := rest } ∧
        sameOutside (pcmBase + 2 * k) 2 s t) ∧
    (s.pending = expand s.cfg (.syn k x) :: rest → k < s.cfg.streamMax →
      ∃ t, step s = .next t ∧ synthAt t k = x ∧ t = { s with mem := t.mem, pending := rest } ∧
        sameOutside (synthBase + 2 * k) 2 s t) ∧
    (s.pending = expand s.cfg (.aux k x) :: rest → k < s.cfg.auxMax →
      ∃ t, step s = .next t ∧ auxAt t k = x ∧ t = { s with mem := t.mem, pending := rest } ∧
        sameOutside (auxBase + 2 * k) 2 s t)

/-- R59, R84, R85: the step of a host read within the window records, with its width and offset, the value MemRead gives
and leaves the state MemRead leaves (the record is the model's own, notes/assumptions/6.md). RSTATUS, RWCUR and RRCUR
record STATUS and the cursors, and RMIX k and RRING b, where R56 defines them, the element and the byte, and nothing else
changes. -/
def Obligations.ReadStepsRecordWhatIsRead : Prop :=
  ∀ (s : State) (rest : List HostEvent), configWf s.cfg = true →
    (∀ n off, off < 0x1000000 → s.pending = .read n (s.cfg.base + off) :: rest →
      let r := memRead n off { s with pending := rest }
      step s = .next { r.2 with readLog := s.readLog ++ [⟨n, off, r.1⟩] }) ∧
    (s.pending = expand s.cfg .rstatus :: rest →
      step s = .next { s with pending := rest, readLog := s.readLog ++ [⟨4, 0x000004, (statusWord s).toNat⟩] }) ∧
    (s.pending = expand s.cfg .rwcur :: rest →
      step s = .next { s with pending := rest, readLog := s.readLog ++ [⟨4, 0x000018, s.wcur.toNat⟩] }) ∧
    (s.pending = expand s.cfg .rrcur :: rest →
      step s = .next { s with pending := rest, readLog := s.readLog ++ [⟨4, 0x00001C, s.rcur.toNat⟩] }) ∧
    (∀ k, s.pending = expand s.cfg (.rmix k) :: rest → s.bufsValid = true → k < mixLen s.cfg s.fps →
      step s = .next { s with pending := rest, readLog := s.readLog ++ [⟨2, 0x030000 + 2 * k, (mixAt s k).toNat⟩] }) ∧
    (∀ b, s.pending = expand s.cfg (.rring b) :: rest → s.bufsValid = true → b < cap s.cfg s.fps →
      step s = .next { s with pending := rest, readLog := s.readLog ++ [⟨1, 0x040000 + b, (ringAt s b).toNat⟩] })
end

