-- ==== Sys2Proof/Laws/Memory.lean ====
section
/-! SUPPORT. The laws of the sparse memory: one read over one block write, and the canonical form is kept. -/

namespace Sys2Proof.Machine

open Sys2Proof

/-! ### Reads of joined lists -/

theorem Memory.lookup_append_right (x : Nat) (m₁ m₂ : Memory) (h : ∀ c ∈ m₁, c.1 ≠ x) :
    Memory.lookup (m₁ ++ m₂) x = Memory.lookup m₂ x := by
  induction m₁ with
  | nil => rfl
  | cons c m₁ ih =>
    obtain ⟨k, b⟩ := c
    simp only [List.mem_cons, forall_eq_or_imp] at h
    simp only [List.cons_append, Memory.lookup, if_neg h.1]
    exact ih h.2

theorem Memory.lookup_append_left (x : Nat) (m₁ m₂ : Memory) (h : ∀ c ∈ m₂, c.1 ≠ x) :
    Memory.lookup (m₁ ++ m₂) x = Memory.lookup m₁ x := by
  induction m₁ with
  | nil =>
    have := Memory.lookup_append_right x m₂ [] h
    simpa [Memory.lookup] using this
  | cons c m₁ ih =>
    obtain ⟨k, b⟩ := c
    simp only [List.cons_append, Memory.lookup, ih]

theorem Memory.lookup_filter (p : Nat → Bool) (m : Memory) (x : Nat) (hx : p x = true) :
    Memory.lookup (m.filter (fun c => p c.1)) x = Memory.lookup m x := by
  induction m with
  | nil => rfl
  | cons c m ih =>
    obtain ⟨k, b⟩ := c
    by_cases hk : p k = true
    · simp [hk, Memory.lookup, ih]
    · have hne : k ≠ x := fun h => hk (h ▸ hx)
      simp [hk, Memory.lookup, ih, hne]

/-! ### The cells of a block -/

theorem Memory.mem_cells {a : Nat} {bs : List Byte} {c : Host.Cell} (h : c ∈ Memory.cells a bs) :
    a ≤ c.1 ∧ c.1 < a + bs.length := by
  induction bs generalizing a with
  | nil => simp [Memory.cells] at h
  | cons b bs ih =>
    simp only [Memory.cells] at h
    split at h
    · have := ih h
      simp only [List.length_cons]
      omega
    · rcases List.mem_cons.1 h with rfl | h
      · simp
      · have := ih h
        simp only [List.length_cons]
        omega

theorem Memory.lookup_cells {a x : Nat} {bs : List Byte} (h₁ : a ≤ x) (h₂ : x < a + bs.length) :
    Memory.lookup (Memory.cells a bs) x = bs[x - a]? := by
  induction bs generalizing a with
  | nil => simp at h₂; omega
  | cons b bs ih =>
    simp only [List.length_cons] at h₂
    rcases Nat.eq_or_lt_of_le h₁ with rfl | hlt
    · simp only [Memory.cells, Nat.sub_self, List.getElem?_cons_zero]
      split
      · rename_i hu
        have := Memory.lookup_append_right a (Memory.cells (a + 1) bs) []
          (fun c hc => by have := Memory.mem_cells hc; omega)
        simp only [List.append_nil] at this
        rw [this, Memory.lookup, hu]
      · simp [Memory.lookup]
    · have hi : x - a = (x - (a + 1)) + 1 := by omega
      rw [hi, List.getElem?_cons_succ]
      simp only [Memory.cells]
      split
      · exact ih (by omega) (by omega)
      · rw [Memory.lookup, if_neg (by omega)]
        exact ih (by omega) (by omega)

/-! ### The block write -/

/-- One byte read after a block write: the block's own byte inside it, the earlier byte everywhere else. -/
theorem Memory.lookup_writeBytes (m : Memory) (a : Nat) (bs : List Byte) (x : Nat) :
    (m.writeBytes a bs).lookup x = if a ≤ x ∧ x < a + bs.length then bs[x - a]? else m.lookup x := by
  unfold Memory.writeBytes
  split
  · rename_i h
    rw [Memory.lookup_append_left _ _ _ (by
      intro c hc
      have := (List.mem_filter.1 hc).2
      simp only [decide_eq_true_eq] at this
      omega)]
    rw [Memory.lookup_append_right _ _ _ (by
      intro c hc
      have := (List.mem_filter.1 hc).2
      simp only [decide_eq_true_eq] at this
      omega)]
    exact Memory.lookup_cells h.1 h.2
  · rename_i h
    by_cases hx : x < a
    · rw [Memory.lookup_append_left _ _ _ (by
        intro c hc
        have := (List.mem_filter.1 hc).2
        simp only [decide_eq_true_eq] at this
        omega)]
      rw [Memory.lookup_append_left _ _ _ (by
        intro c hc
        have := Memory.mem_cells hc
        omega)]
      exact Memory.lookup_filter (fun k => decide (k < a)) m x (by simpa using hx)
    · rw [Memory.lookup_append_right _ _ _ (by
        intro c hc
        rcases List.mem_append.1 hc with hc | hc
        · have := (List.mem_filter.1 hc).2
          simp only [decide_eq_true_eq] at this
          omega
        · have := Memory.mem_cells hc
          omega)]
      exact Memory.lookup_filter (fun k => decide (a + bs.length ≤ k)) m x (by simp; omega)

/-! ### The canonical form -/

theorem Memory.wfFrom_mono {lo lo' : Nat} {m : Memory} (h : Memory.wfFrom lo m = true) (hle : lo' ≤ lo) :
    Memory.wfFrom lo' m = true := by
  cases m with
  | nil => rfl
  | cons c m =>
    obtain ⟨k, b⟩ := c
    simp only [Memory.wfFrom, Bool.and_eq_true, decide_eq_true_eq] at h ⊢
    exact ⟨⟨by omega, h.1.2⟩, h.2⟩

theorem Memory.wfFrom_append {lo mid : Nat} {m₁ m₂ : Memory} (h₁ : Memory.wfFrom lo m₁ = true)
    (hlt : ∀ c ∈ m₁, c.1 < mid) (hle : lo ≤ mid) (h₂ : Memory.wfFrom mid m₂ = true) :
    Memory.wfFrom lo (m₁ ++ m₂) = true := by
  induction m₁ generalizing lo with
  | nil => exact Memory.wfFrom_mono h₂ hle
  | cons c m₁ ih =>
    obtain ⟨k, b⟩ := c
    simp only [Memory.wfFrom, Bool.and_eq_true, decide_eq_true_eq, List.cons_append] at h₁ ⊢
    simp only [List.mem_cons, forall_eq_or_imp] at hlt
    exact ⟨h₁.1, ih h₁.2 hlt.2 (by omega)⟩

theorem Memory.wfFrom_filter (p : Nat → Bool) {lo : Nat} {m : Memory} (h : Memory.wfFrom lo m = true) :
    Memory.wfFrom lo (m.filter (fun c => p c.1)) = true := by
  induction m generalizing lo with
  | nil => rfl
  | cons c m ih =>
    obtain ⟨k, b⟩ := c
    simp only [Memory.wfFrom, Bool.and_eq_true, decide_eq_true_eq] at h
    by_cases hk : p k = true
    · simp only [List.filter_cons, hk, if_true, Memory.wfFrom, Bool.and_eq_true, decide_eq_true_eq]
      exact ⟨h.1, ih h.2⟩
    · simp only [List.filter_cons, hk]
      exact Memory.wfFrom_mono (ih h.2) (by omega)

theorem Memory.wfFrom_raise {lo lo' : Nat} {m : Memory} (h : Memory.wfFrom lo m = true)
    (hge : ∀ c ∈ m, lo' ≤ c.1) : Memory.wfFrom lo' m = true := by
  cases m with
  | nil => rfl
  | cons c m =>
    obtain ⟨k, b⟩ := c
    simp only [List.mem_cons, forall_eq_or_imp] at hge
    simp only [Memory.wfFrom, Bool.and_eq_true, decide_eq_true_eq] at h ⊢
    exact ⟨⟨hge.1, h.1.2⟩, h.2⟩

theorem Memory.wfFrom_cells (a : Nat) (bs : List Byte) : Memory.wfFrom a (Memory.cells a bs) = true := by
  induction bs generalizing a with
  | nil => rfl
  | cons b bs ih =>
    simp only [Memory.cells]
    split
    · exact Memory.wfFrom_mono (ih (a + 1)) (by omega)
    · rename_i hu
      simp only [Memory.wfFrom, le_refl, decide_true, Bool.true_and, Bool.and_eq_true, bne_iff_ne, ne_eq]
      exact ⟨hu, ih (a + 1)⟩

/-- A block write keeps the canonical form. -/
theorem Memory.wf_writeBytes {m : Memory} (a : Nat) (bs : List Byte) (h : m.wf = true) :
    (m.writeBytes a bs).wf = true := by
  unfold Memory.wf Memory.writeBytes at *
  rw [List.append_assoc]
  refine Memory.wfFrom_append (mid := a)
    (Memory.wfFrom_filter (fun k => decide (k < a)) h) ?_ (Nat.zero_le a) ?_
  · intro c hc
    simpa using (List.mem_filter.1 hc).2
  · refine Memory.wfFrom_append (mid := a + bs.length) (Memory.wfFrom_cells a bs)
      (fun c hc => (Memory.mem_cells hc).2) (by omega) ?_
    refine Memory.wfFrom_raise (Memory.wfFrom_filter (fun k => decide (a + bs.length ≤ k)) h) ?_
    intro c hc
    simpa using (List.mem_filter.1 hc).2

/-- The wrapped copy keeps the canonical form. -/
theorem wf_ringCopy {m : Memory} (cp wc : Nat) (bs : List Byte) (h : m.wf = true) :
    (ringCopy m cp wc bs).wf = true := by
  unfold ringCopy
  split
  · exact Memory.wf_writeBytes _ _ h
  · exact Memory.wf_writeBytes _ _ (Memory.wf_writeBytes _ _ h)

/-- The memory after power-on reset is canonical. -/
theorem reset_mem_wf : State.reset.mem.wf = true := rfl

/-! ### Bytes of a state -/

/-- A byte after a block write to a state's memory. -/
theorem byteAt_writeBytes (s : State) (a : Nat) (bs : List Byte) (x : Nat) :
    byteAt { s with mem := s.mem.writeBytes a bs } x =
      if h : a ≤ x ∧ x < a + bs.length then bs[x - a]'(by omega) else byteAt s x := by
  by_cases h : a ≤ x ∧ x < a + bs.length
  · rw [dif_pos h]
    simp only [byteAt, Memory.lookup_writeBytes, if_pos h]
    rw [List.getElem?_eq_getElem (by omega)]
    rfl
  · rw [dif_neg h]
    simp only [byteAt, Memory.lookup_writeBytes, if_neg h]

/-- A byte of a state depends on its memory and its epoch alone. -/
theorem byteAt_congr {s t : State} (hm : t.mem = s.mem) (he : t.epoch = s.epoch) (a : Nat) :
    byteAt t a = byteAt s a := by
  simp only [byteAt, hm, he]

/-- The state after a block store, byte by byte. -/
theorem byteAt_store (s : State) (a : Nat) (bs : List Byte) (x : Nat) :
    byteAt (s.store a bs) x =
      if h : a ≤ x ∧ x < a + bs.length then bs[x - a]'(by omega) else byteAt s x :=
  byteAt_writeBytes s a bs x

/-! ### Elements and their bytes (R54) -/

@[simp] theorem bytesOf_length (xs : List Sample) : (bytesOf xs).length = 2 * xs.length := by
  induction xs with
  | nil => rfl
  | cons x xs ih => simp only [bytesOf, List.length_cons, ih]; omega

theorem bytesOf_lo (xs : List Sample) (k : Nat) (h : k < xs.length) :
    (bytesOf xs)[2 * k]? = some (loByte xs[k]) := by
  induction xs generalizing k with
  | nil => simp at h
  | cons x xs ih =>
    cases k with
    | zero => rfl
    | succ k =>
      have : 2 * (k + 1) = 2 * k + 1 + 1 := by omega
      simp only [bytesOf, this, List.getElem?_cons_succ, List.getElem_cons_succ]
      exact ih k (by simpa using h)

theorem bytesOf_hi (xs : List Sample) (k : Nat) (h : k < xs.length) :
    (bytesOf xs)[2 * k + 1]? = some (hiByte xs[k]) := by
  induction xs generalizing k with
  | nil => simp at h
  | cons x xs ih =>
    cases k with
    | zero => rfl
    | succ k =>
      have : 2 * (k + 1) + 1 = 2 * k + 1 + 1 + 1 := by omega
      simp only [bytesOf, this, List.getElem?_cons_succ, List.getElem_cons_succ]
      exact ih k (by simpa using h)

/-- An element is its high byte before its low byte. -/
theorem hiByte_append_loByte (x : Sample) : hiByte x ++ loByte x = x := by
  apply BitVec.eq_of_getLsbD_eq
  intro i hi
  have := BitVec.getLsbD_append (x := hiByte x) (y := loByte x) (i := i)
  refine this.trans ?_
  simp only [hiByte, loByte, BitVec.getLsbD_extractLsb']
  split
  · simp_all
  · rw [show 8 + (i - 8) = i by omega]
    simp only [Bool.and_eq_right_iff_imp, decide_eq_true_eq]
    omega

theorem loByte_append (x y : Byte) : loByte (x ++ y) = y := by
  apply BitVec.eq_of_getLsbD_eq
  intro i hi
  have := BitVec.getLsbD_append (x := x) (y := y) (i := i)
  simp only [loByte, BitVec.getLsbD_extractLsb', hi, decide_true, Bool.true_and, Nat.zero_add]
  exact this.trans (by simp [hi])

theorem hiByte_append (x y : Byte) : hiByte (x ++ y) = x := by
  apply BitVec.eq_of_getLsbD_eq
  intro i hi
  have := BitVec.getLsbD_append (x := x) (y := y) (i := 8 + i)
  simp only [hiByte, BitVec.getLsbD_extractLsb', hi, decide_true, Bool.true_and]
  exact this.trans (by simp)

@[simp] theorem loByte_elemAt (s : State) (base k : Nat) : loByte (elemAt s base k) = byteAt s (base + 2 * k) :=
  loByte_append _ _

@[simp] theorem hiByte_elemAt (s : State) (base k : Nat) :
    hiByte (elemAt s base k) = byteAt s (base + 2 * k + 1) :=
  hiByte_append _ _

/-- An element of a window whose two bytes agree in two states is the same in both. -/
theorem elemAt_congr {s t : State} {base k : Nat} (h₁ : byteAt t (base + 2 * k) = byteAt s (base + 2 * k))
    (h₂ : byteAt t (base + 2 * k + 1) = byteAt s (base + 2 * k + 1)) : elemAt t base k = elemAt s base k := by
  simp only [elemAt, h₁, h₂]

/-- Element `k` after storing the list `xs` of elements from `base` on. -/
theorem elemAt_writeElems (s : State) (base : Nat) (xs : List Sample) (k : Nat) (h : k < xs.length) :
    elemAt { s with mem := s.mem.writeBytes base (bytesOf xs) } base k = xs[k] := by
  have hlen := bytesOf_length xs
  have h0 : (bytesOf xs)[base + 2 * k - base]? = some (loByte xs[k]) := by
    rw [Nat.add_sub_cancel_left]; exact bytesOf_lo xs k h
  have h1 : (bytesOf xs)[base + 2 * k + 1 - base]? = some (hiByte xs[k]) := by
    rw [show base + 2 * k + 1 - base = 2 * k + 1 by omega]; exact bytesOf_hi xs k h
  simp only [elemAt, byteAt, Memory.lookup_writeBytes]
  rw [if_pos (by omega), if_pos (by omega), h0, h1]
  exact hiByte_append_loByte _

/-- Zeroing a block of whole elements makes each of them 0. -/
theorem elemAt_zeroed (s : State) (base n k : Nat) (h : k < n) :
    elemAt { s with mem := s.mem.writeBytes base (List.replicate (2 * n) 0) } base k = 0 := by
  simp only [elemAt, byteAt, Memory.lookup_writeBytes, List.length_replicate]
  rw [if_pos (by omega), if_pos (by omega), List.getElem?_replicate, List.getElem?_replicate,
    if_pos (by omega), if_pos (by omega)]
  simp only [Option.getD_some]
  decide

end Sys2Proof.Machine
end

