-- ==== Sys2Proof/Laws/State.lean ====
section
/-! SUPPORT. One lemma per field per update of State: what each shared operation leaves in each field. -/

namespace Sys2Proof.Machine

open Sys2Proof

/-! ### raiseFault -/

@[simp] theorem raiseFault_enabled (c : FaultCode) (s : State) :
    (raiseFault c s).enabled = s.enabled := by unfold raiseFault; split <;> rfl
@[simp] theorem raiseFault_paused (c : FaultCode) (s : State) :
    (raiseFault c s).paused = s.paused := by unfold raiseFault; split <;> rfl
@[simp] theorem raiseFault_cfgStale (c : FaultCode) (s : State) :
    (raiseFault c s).cfgStale = s.cfgStale := by unfold raiseFault; split <;> rfl
@[simp] theorem raiseFault_bufsValid (c : FaultCode) (s : State) :
    (raiseFault c s).bufsValid = s.bufsValid := by unfold raiseFault; split <;> rfl
@[simp] theorem raiseFault_fps (c : FaultCode) (s : State) :
    (raiseFault c s).fps = s.fps := by unfold raiseFault; split <;> rfl
@[simp] theorem raiseFault_wcur (c : FaultCode) (s : State) :
    (raiseFault c s).wcur = s.wcur := by unfold raiseFault; split <;> rfl
@[simp] theorem raiseFault_rcur (c : FaultCode) (s : State) :
    (raiseFault c s).rcur = s.rcur := by unfold raiseFault; split <;> rfl
@[simp] theorem raiseFault_auxEmpty (c : FaultCode) (s : State) :
    (raiseFault c s).auxEmpty = s.auxEmpty := by unfold raiseFault; split <;> rfl
@[simp] theorem raiseFault_auxLen (c : FaultCode) (s : State) :
    (raiseFault c s).auxLen = s.auxLen := by unfold raiseFault; split <;> rfl
@[simp] theorem raiseFault_auxPos (c : FaultCode) (s : State) :
    (raiseFault c s).auxPos = s.auxPos := by unfold raiseFault; split <;> rfl
@[simp] theorem raiseFault_auxErr (c : FaultCode) (s : State) :
    (raiseFault c s).auxErr = s.auxErr := by unfold raiseFault; split <;> rfl
@[simp] theorem raiseFault_fault (c : FaultCode) (s : State) :
    (raiseFault c s).fault = true := by unfold raiseFault; split <;> simp_all
@[simp] theorem raiseFault_drainCount (c : FaultCode) (s : State) :
    (raiseFault c s).drainCount = s.drainCount := by unfold raiseFault; split <;> rfl
@[simp] theorem raiseFault_mem (c : FaultCode) (s : State) :
    (raiseFault c s).mem = s.mem := by unfold raiseFault; split <;> rfl
@[simp] theorem raiseFault_sink (c : FaultCode) (s : State) :
    (raiseFault c s).sink = s.sink := by unfold raiseFault; split <;> rfl
@[simp] theorem raiseFault_cfg (c : FaultCode) (s : State) :
    (raiseFault c s).cfg = s.cfg := by unfold raiseFault; split <;> rfl
@[simp] theorem raiseFault_epoch (c : FaultCode) (s : State) :
    (raiseFault c s).epoch = s.epoch := by unfold raiseFault; split <;> rfl
@[simp] theorem raiseFault_anyCount (c : FaultCode) (s : State) :
    (raiseFault c s).anyCount = s.anyCount := by unfold raiseFault; split <;> rfl
@[simp] theorem raiseFault_readLog (c : FaultCode) (s : State) :
    (raiseFault c s).readLog = s.readLog := by unfold raiseFault; split <;> rfl
@[simp] theorem raiseFault_pending (c : FaultCode) (s : State) :
    (raiseFault c s).pending = s.pending := by unfold raiseFault; split <;> rfl

/-! ### store -/

@[simp] theorem store_enabled (s : State) (a : Nat) (bs : List Byte) : (s.store a bs).enabled = s.enabled := rfl
@[simp] theorem store_paused (s : State) (a : Nat) (bs : List Byte) : (s.store a bs).paused = s.paused := rfl
@[simp] theorem store_cfgStale (s : State) (a : Nat) (bs : List Byte) : (s.store a bs).cfgStale = s.cfgStale := rfl
@[simp] theorem store_bufsValid (s : State) (a : Nat) (bs : List Byte) : (s.store a bs).bufsValid = s.bufsValid := rfl
@[simp] theorem store_fps (s : State) (a : Nat) (bs : List Byte) : (s.store a bs).fps = s.fps := rfl
@[simp] theorem store_wcur (s : State) (a : Nat) (bs : List Byte) : (s.store a bs).wcur = s.wcur := rfl
@[simp] theorem store_rcur (s : State) (a : Nat) (bs : List Byte) : (s.store a bs).rcur = s.rcur := rfl
@[simp] theorem store_auxEmpty (s : State) (a : Nat) (bs : List Byte) : (s.store a bs).auxEmpty = s.auxEmpty := rfl
@[simp] theorem store_auxLen (s : State) (a : Nat) (bs : List Byte) : (s.store a bs).auxLen = s.auxLen := rfl
@[simp] theorem store_auxPos (s : State) (a : Nat) (bs : List Byte) : (s.store a bs).auxPos = s.auxPos := rfl
@[simp] theorem store_auxErr (s : State) (a : Nat) (bs : List Byte) : (s.store a bs).auxErr = s.auxErr := rfl
@[simp] theorem store_fault (s : State) (a : Nat) (bs : List Byte) : (s.store a bs).fault = s.fault := rfl
@[simp] theorem store_faultCode (s : State) (a : Nat) (bs : List Byte) : (s.store a bs).faultCode = s.faultCode := rfl
@[simp] theorem store_drainCount (s : State) (a : Nat) (bs : List Byte) :
    (s.store a bs).drainCount = s.drainCount := rfl
@[simp] theorem store_mem (s : State) (a : Nat) (bs : List Byte) : (s.store a bs).mem = s.mem.writeBytes a bs := rfl
@[simp] theorem store_sink (s : State) (a : Nat) (bs : List Byte) : (s.store a bs).sink = s.sink := rfl
@[simp] theorem store_cfg (s : State) (a : Nat) (bs : List Byte) : (s.store a bs).cfg = s.cfg := rfl
@[simp] theorem store_epoch (s : State) (a : Nat) (bs : List Byte) : (s.store a bs).epoch = s.epoch := rfl
@[simp] theorem store_anyCount (s : State) (a : Nat) (bs : List Byte) : (s.store a bs).anyCount = s.anyCount := rfl
@[simp] theorem store_readLog (s : State) (a : Nat) (bs : List Byte) : (s.store a bs).readLog = s.readLog := rfl
@[simp] theorem store_pending (s : State) (a : Nat) (bs : List Byte) : (s.store a bs).pending = s.pending := rfl

/-! ### powerOnReset -/

@[simp] theorem powerOnReset_enabled (s : State) : (powerOnReset s).enabled = false := rfl
@[simp] theorem powerOnReset_paused (s : State) : (powerOnReset s).paused = false := rfl
@[simp] theorem powerOnReset_cfgStale (s : State) : (powerOnReset s).cfgStale = false := rfl
@[simp] theorem powerOnReset_bufsValid (s : State) : (powerOnReset s).bufsValid = false := rfl
@[simp] theorem powerOnReset_fps (s : State) : (powerOnReset s).fps = .fps60 := rfl
@[simp] theorem powerOnReset_wcur (s : State) : (powerOnReset s).wcur = 0 := rfl
@[simp] theorem powerOnReset_rcur (s : State) : (powerOnReset s).rcur = 0 := rfl
@[simp] theorem powerOnReset_auxEmpty (s : State) : (powerOnReset s).auxEmpty = true := rfl
@[simp] theorem powerOnReset_auxLen (s : State) : (powerOnReset s).auxLen = 1 := rfl
@[simp] theorem powerOnReset_auxPos (s : State) : (powerOnReset s).auxPos = 0 := rfl
@[simp] theorem powerOnReset_auxErr (s : State) : (powerOnReset s).auxErr = false := rfl
@[simp] theorem powerOnReset_fault (s : State) : (powerOnReset s).fault = false := rfl
@[simp] theorem powerOnReset_faultCode (s : State) : (powerOnReset s).faultCode = 0 := rfl
@[simp] theorem powerOnReset_drainCount (s : State) : (powerOnReset s).drainCount = 0 := rfl
@[simp] theorem powerOnReset_mem (s : State) : (powerOnReset s).mem = [] := rfl
@[simp] theorem powerOnReset_sink (s : State) : (powerOnReset s).sink = [] := rfl
@[simp] theorem powerOnReset_cfg (s : State) : (powerOnReset s).cfg = s.cfg := rfl
@[simp] theorem powerOnReset_epoch (s : State) : (powerOnReset s).epoch = s.epoch + 1 := rfl
@[simp] theorem powerOnReset_anyCount (s : State) : (powerOnReset s).anyCount = s.anyCount := rfl
@[simp] theorem powerOnReset_readLog (s : State) : (powerOnReset s).readLog = s.readLog := rfl
@[simp] theorem powerOnReset_pending (s : State) : (powerOnReset s).pending = s.pending := rfl

/-! ### mixBody -/

@[simp] theorem mixBody_enabled (n : Nat) (s : State) : (mixBody n s).enabled = s.enabled := rfl
@[simp] theorem mixBody_paused (n : Nat) (s : State) : (mixBody n s).paused = s.paused := rfl
@[simp] theorem mixBody_cfgStale (n : Nat) (s : State) : (mixBody n s).cfgStale = s.cfgStale := rfl
@[simp] theorem mixBody_bufsValid (n : Nat) (s : State) : (mixBody n s).bufsValid = s.bufsValid := rfl
@[simp] theorem mixBody_fps (n : Nat) (s : State) : (mixBody n s).fps = s.fps := rfl
@[simp] theorem mixBody_wcur (n : Nat) (s : State) : (mixBody n s).wcur = s.wcur := rfl
@[simp] theorem mixBody_rcur (n : Nat) (s : State) : (mixBody n s).rcur = s.rcur := rfl
@[simp] theorem mixBody_auxEmpty (n : Nat) (s : State) : (mixBody n s).auxEmpty = s.auxEmpty := rfl
@[simp] theorem mixBody_auxLen (n : Nat) (s : State) : (mixBody n s).auxLen = s.auxLen := rfl
@[simp] theorem mixBody_auxPos (n : Nat) (s : State) :
    (mixBody n s).auxPos = BitVec.ofNat 32 (mixLoop s n 0 s.auxPos.toNat).2 := rfl
@[simp] theorem mixBody_auxErr (n : Nat) (s : State) : (mixBody n s).auxErr = s.auxErr := rfl
@[simp] theorem mixBody_fault (n : Nat) (s : State) : (mixBody n s).fault = s.fault := rfl
@[simp] theorem mixBody_faultCode (n : Nat) (s : State) : (mixBody n s).faultCode = s.faultCode := rfl
@[simp] theorem mixBody_drainCount (n : Nat) (s : State) : (mixBody n s).drainCount = s.drainCount := rfl
@[simp] theorem mixBody_mem (n : Nat) (s : State) :
    (mixBody n s).mem = s.mem.writeBytes mixBase (bytesOf (mixLoop s n 0 s.auxPos.toNat).1) := rfl
@[simp] theorem mixBody_sink (n : Nat) (s : State) : (mixBody n s).sink = s.sink := rfl
@[simp] theorem mixBody_cfg (n : Nat) (s : State) : (mixBody n s).cfg = s.cfg := rfl
@[simp] theorem mixBody_epoch (n : Nat) (s : State) : (mixBody n s).epoch = s.epoch := rfl
@[simp] theorem mixBody_anyCount (n : Nat) (s : State) : (mixBody n s).anyCount = s.anyCount := rfl
@[simp] theorem mixBody_readLog (n : Nat) (s : State) : (mixBody n s).readLog = s.readLog := rfl
@[simp] theorem mixBody_pending (n : Nat) (s : State) : (mixBody n s).pending = s.pending := rfl

/-! ### ringReset -/

@[simp] theorem ringReset_enabled (s : State) : (ringReset s).enabled = s.enabled := rfl
@[simp] theorem ringReset_paused (s : State) : (ringReset s).paused = s.paused := rfl
@[simp] theorem ringReset_cfgStale (s : State) : (ringReset s).cfgStale = false := rfl
@[simp] theorem ringReset_bufsValid (s : State) : (ringReset s).bufsValid = true := rfl
@[simp] theorem ringReset_fps (s : State) : (ringReset s).fps = s.fps := rfl
@[simp] theorem ringReset_wcur (s : State) : (ringReset s).wcur = BitVec.ofNat 32 (offset s.cfg s.fps) := rfl
@[simp] theorem ringReset_rcur (s : State) : (ringReset s).rcur = 0 := rfl
@[simp] theorem ringReset_auxEmpty (s : State) : (ringReset s).auxEmpty = s.auxEmpty := rfl
@[simp] theorem ringReset_auxLen (s : State) : (ringReset s).auxLen = s.auxLen := rfl
@[simp] theorem ringReset_auxPos (s : State) : (ringReset s).auxPos = s.auxPos := rfl
@[simp] theorem ringReset_auxErr (s : State) : (ringReset s).auxErr = s.auxErr := rfl
@[simp] theorem ringReset_fault (s : State) : (ringReset s).fault = s.fault := rfl
@[simp] theorem ringReset_faultCode (s : State) : (ringReset s).faultCode = s.faultCode := rfl
@[simp] theorem ringReset_drainCount (s : State) : (ringReset s).drainCount = s.drainCount := rfl
@[simp] theorem ringReset_sink (s : State) : (ringReset s).sink = s.sink := rfl
@[simp] theorem ringReset_cfg (s : State) : (ringReset s).cfg = s.cfg := rfl
@[simp] theorem ringReset_epoch (s : State) : (ringReset s).epoch = s.epoch := rfl
@[simp] theorem ringReset_anyCount (s : State) : (ringReset s).anyCount = s.anyCount := rfl
@[simp] theorem ringReset_readLog (s : State) : (ringReset s).readLog = s.readLog := rfl
@[simp] theorem ringReset_pending (s : State) : (ringReset s).pending = s.pending := rfl

/-! ### deliver -/

@[simp] theorem deliver_enabled (s : State) : (deliver s).enabled = s.enabled := rfl
@[simp] theorem deliver_paused (s : State) : (deliver s).paused = s.paused := rfl
@[simp] theorem deliver_cfgStale (s : State) : (deliver s).cfgStale = s.cfgStale := rfl
@[simp] theorem deliver_bufsValid (s : State) : (deliver s).bufsValid = s.bufsValid := rfl
@[simp] theorem deliver_fps (s : State) : (deliver s).fps = s.fps := rfl
@[simp] theorem deliver_wcur (s : State) : (deliver s).wcur = s.wcur := rfl
@[simp] theorem deliver_rcur (s : State) : (deliver s).rcur = s.rcur := rfl
@[simp] theorem deliver_auxEmpty (s : State) : (deliver s).auxEmpty = s.auxEmpty := rfl
@[simp] theorem deliver_auxLen (s : State) : (deliver s).auxLen = s.auxLen := rfl
@[simp] theorem deliver_auxPos (s : State) : (deliver s).auxPos = s.auxPos := rfl
@[simp] theorem deliver_auxErr (s : State) : (deliver s).auxErr = s.auxErr := rfl
@[simp] theorem deliver_fault (s : State) : (deliver s).fault = s.fault := rfl
@[simp] theorem deliver_faultCode (s : State) : (deliver s).faultCode = s.faultCode := rfl
@[simp] theorem deliver_drainCount (s : State) : (deliver s).drainCount = s.drainCount + 1 := rfl
@[simp] theorem deliver_mem (s : State) : (deliver s).mem = s.mem := rfl
@[simp] theorem deliver_sink (s : State) :
    (deliver s).sink = s.sink ++ [⟨frames s.cfg s.fps, (List.range (2 * frames s.cfg s.fps)).map (mixAt s)⟩] := rfl
@[simp] theorem deliver_cfg (s : State) : (deliver s).cfg = s.cfg := rfl
@[simp] theorem deliver_epoch (s : State) : (deliver s).epoch = s.epoch := rfl
@[simp] theorem deliver_anyCount (s : State) : (deliver s).anyCount = s.anyCount := rfl
@[simp] theorem deliver_readLog (s : State) : (deliver s).readLog = s.readLog := rfl
@[simp] theorem deliver_pending (s : State) : (deliver s).pending = s.pending := rfl

/-! ### advanceRing -/

@[simp] theorem advanceRing_enabled (bw : Nat) (s : State) : (advanceRing bw s).enabled = s.enabled := rfl
@[simp] theorem advanceRing_paused (bw : Nat) (s : State) : (advanceRing bw s).paused = s.paused := rfl
@[simp] theorem advanceRing_cfgStale (bw : Nat) (s : State) : (advanceRing bw s).cfgStale = s.cfgStale := rfl
@[simp] theorem advanceRing_bufsValid (bw : Nat) (s : State) : (advanceRing bw s).bufsValid = s.bufsValid := rfl
@[simp] theorem advanceRing_fps (bw : Nat) (s : State) : (advanceRing bw s).fps = s.fps := rfl
@[simp] theorem advanceRing_auxEmpty (bw : Nat) (s : State) : (advanceRing bw s).auxEmpty = s.auxEmpty := rfl
@[simp] theorem advanceRing_auxLen (bw : Nat) (s : State) : (advanceRing bw s).auxLen = s.auxLen := rfl
@[simp] theorem advanceRing_auxPos (bw : Nat) (s : State) : (advanceRing bw s).auxPos = s.auxPos := rfl
@[simp] theorem advanceRing_auxErr (bw : Nat) (s : State) : (advanceRing bw s).auxErr = s.auxErr := rfl
@[simp] theorem advanceRing_fault (bw : Nat) (s : State) : (advanceRing bw s).fault = s.fault := rfl
@[simp] theorem advanceRing_faultCode (bw : Nat) (s : State) : (advanceRing bw s).faultCode = s.faultCode := rfl
@[simp] theorem advanceRing_drainCount (bw : Nat) (s : State) : (advanceRing bw s).drainCount = s.drainCount := rfl
@[simp] theorem advanceRing_mem (bw : Nat) (s : State) :
    (advanceRing bw s).mem = ringCopy s.mem (cap s.cfg s.fps) s.wcur.toNat (mixBytes s bw) := rfl
@[simp] theorem advanceRing_sink (bw : Nat) (s : State) : (advanceRing bw s).sink = s.sink := rfl
@[simp] theorem advanceRing_cfg (bw : Nat) (s : State) : (advanceRing bw s).cfg = s.cfg := rfl
@[simp] theorem advanceRing_epoch (bw : Nat) (s : State) : (advanceRing bw s).epoch = s.epoch := rfl
@[simp] theorem advanceRing_anyCount (bw : Nat) (s : State) : (advanceRing bw s).anyCount = s.anyCount := rfl
@[simp] theorem advanceRing_readLog (bw : Nat) (s : State) : (advanceRing bw s).readLog = s.readLog := rfl
@[simp] theorem advanceRing_pending (bw : Nat) (s : State) : (advanceRing bw s).pending = s.pending := rfl

/-! ### pushBody -/

@[simp] theorem pushBody_enabled (n : Nat) (s : State) : (pushBody n s).enabled = s.enabled := rfl
@[simp] theorem pushBody_paused (n : Nat) (s : State) : (pushBody n s).paused = s.paused := rfl
@[simp] theorem pushBody_cfgStale (n : Nat) (s : State) : (pushBody n s).cfgStale = s.cfgStale := rfl
@[simp] theorem pushBody_bufsValid (n : Nat) (s : State) : (pushBody n s).bufsValid = s.bufsValid := rfl
@[simp] theorem pushBody_fps (n : Nat) (s : State) : (pushBody n s).fps = s.fps := rfl
@[simp] theorem pushBody_auxEmpty (n : Nat) (s : State) : (pushBody n s).auxEmpty = s.auxEmpty := rfl
@[simp] theorem pushBody_auxLen (n : Nat) (s : State) : (pushBody n s).auxLen = s.auxLen := rfl
@[simp] theorem pushBody_auxPos (n : Nat) (s : State) : (pushBody n s).auxPos = s.auxPos := rfl
@[simp] theorem pushBody_auxErr (n : Nat) (s : State) : (pushBody n s).auxErr = s.auxErr := rfl
@[simp] theorem pushBody_fault (n : Nat) (s : State) : (pushBody n s).fault = s.fault := rfl
@[simp] theorem pushBody_faultCode (n : Nat) (s : State) : (pushBody n s).faultCode = s.faultCode := rfl
@[simp] theorem pushBody_drainCount (n : Nat) (s : State) : (pushBody n s).drainCount = s.drainCount + 1 := rfl
@[simp] theorem pushBody_mem (n : Nat) (s : State) :
    (pushBody n s).mem = ringCopy s.mem (cap s.cfg s.fps) s.wcur.toNat (mixBytes s (bytesWritten n)) := rfl
@[simp] theorem pushBody_cfg (n : Nat) (s : State) : (pushBody n s).cfg = s.cfg := rfl
@[simp] theorem pushBody_epoch (n : Nat) (s : State) : (pushBody n s).epoch = s.epoch := rfl
@[simp] theorem pushBody_anyCount (n : Nat) (s : State) : (pushBody n s).anyCount = s.anyCount := rfl
@[simp] theorem pushBody_readLog (n : Nat) (s : State) : (pushBody n s).readLog = s.readLog := rfl
@[simp] theorem pushBody_pending (n : Nat) (s : State) : (pushBody n s).pending = s.pending := rfl

/-! ### recordRead -/

@[simp] theorem recordRead_enabled (r : ReadResult) (s : State) : (recordRead r s).enabled = s.enabled := rfl
@[simp] theorem recordRead_paused (r : ReadResult) (s : State) : (recordRead r s).paused = s.paused := rfl
@[simp] theorem recordRead_cfgStale (r : ReadResult) (s : State) : (recordRead r s).cfgStale = s.cfgStale := rfl
@[simp] theorem recordRead_bufsValid (r : ReadResult) (s : State) : (recordRead r s).bufsValid = s.bufsValid := rfl
@[simp] theorem recordRead_fps (r : ReadResult) (s : State) : (recordRead r s).fps = s.fps := rfl
@[simp] theorem recordRead_wcur (r : ReadResult) (s : State) : (recordRead r s).wcur = s.wcur := rfl
@[simp] theorem recordRead_rcur (r : ReadResult) (s : State) : (recordRead r s).rcur = s.rcur := rfl
@[simp] theorem recordRead_auxEmpty (r : ReadResult) (s : State) : (recordRead r s).auxEmpty = s.auxEmpty := rfl
@[simp] theorem recordRead_auxLen (r : ReadResult) (s : State) : (recordRead r s).auxLen = s.auxLen := rfl
@[simp] theorem recordRead_auxPos (r : ReadResult) (s : State) : (recordRead r s).auxPos = s.auxPos := rfl
@[simp] theorem recordRead_auxErr (r : ReadResult) (s : State) : (recordRead r s).auxErr = s.auxErr := rfl
@[simp] theorem recordRead_fault (r : ReadResult) (s : State) : (recordRead r s).fault = s.fault := rfl
@[simp] theorem recordRead_faultCode (r : ReadResult) (s : State) : (recordRead r s).faultCode = s.faultCode := rfl
@[simp] theorem recordRead_drainCount (r : ReadResult) (s : State) : (recordRead r s).drainCount = s.drainCount := rfl
@[simp] theorem recordRead_mem (r : ReadResult) (s : State) : (recordRead r s).mem = s.mem := rfl
@[simp] theorem recordRead_sink (r : ReadResult) (s : State) : (recordRead r s).sink = s.sink := rfl
@[simp] theorem recordRead_cfg (r : ReadResult) (s : State) : (recordRead r s).cfg = s.cfg := rfl
@[simp] theorem recordRead_epoch (r : ReadResult) (s : State) : (recordRead r s).epoch = s.epoch := rfl
@[simp] theorem recordRead_anyCount (r : ReadResult) (s : State) : (recordRead r s).anyCount = s.anyCount := rfl
@[simp] theorem recordRead_readLog (r : ReadResult) (s : State) : (recordRead r s).readLog = s.readLog ++ [r] := rfl
@[simp] theorem recordRead_pending (r : ReadResult) (s : State) : (recordRead r s).pending = s.pending := rfl

/-! ### drawAny -/

@[simp] theorem drawAny_enabled (n : Nat) (s : State) : (drawAny n s).2.enabled = s.enabled := rfl
@[simp] theorem drawAny_paused (n : Nat) (s : State) : (drawAny n s).2.paused = s.paused := rfl
@[simp] theorem drawAny_cfgStale (n : Nat) (s : State) : (drawAny n s).2.cfgStale = s.cfgStale := rfl
@[simp] theorem drawAny_bufsValid (n : Nat) (s : State) : (drawAny n s).2.bufsValid = s.bufsValid := rfl
@[simp] theorem drawAny_fps (n : Nat) (s : State) : (drawAny n s).2.fps = s.fps := rfl
@[simp] theorem drawAny_wcur (n : Nat) (s : State) : (drawAny n s).2.wcur = s.wcur := rfl
@[simp] theorem drawAny_rcur (n : Nat) (s : State) : (drawAny n s).2.rcur = s.rcur := rfl
@[simp] theorem drawAny_auxEmpty (n : Nat) (s : State) : (drawAny n s).2.auxEmpty = s.auxEmpty := rfl
@[simp] theorem drawAny_auxLen (n : Nat) (s : State) : (drawAny n s).2.auxLen = s.auxLen := rfl
@[simp] theorem drawAny_auxPos (n : Nat) (s : State) : (drawAny n s).2.auxPos = s.auxPos := rfl
@[simp] theorem drawAny_auxErr (n : Nat) (s : State) : (drawAny n s).2.auxErr = s.auxErr := rfl
@[simp] theorem drawAny_fault (n : Nat) (s : State) : (drawAny n s).2.fault = s.fault := rfl
@[simp] theorem drawAny_faultCode (n : Nat) (s : State) : (drawAny n s).2.faultCode = s.faultCode := rfl
@[simp] theorem drawAny_drainCount (n : Nat) (s : State) : (drawAny n s).2.drainCount = s.drainCount := rfl
@[simp] theorem drawAny_mem (n : Nat) (s : State) : (drawAny n s).2.mem = s.mem := rfl
@[simp] theorem drawAny_sink (n : Nat) (s : State) : (drawAny n s).2.sink = s.sink := rfl
@[simp] theorem drawAny_cfg (n : Nat) (s : State) : (drawAny n s).2.cfg = s.cfg := rfl
@[simp] theorem drawAny_epoch (n : Nat) (s : State) : (drawAny n s).2.epoch = s.epoch := rfl
@[simp] theorem drawAny_anyCount (n : Nat) (s : State) : (drawAny n s).2.anyCount = s.anyCount + 1 := rfl
@[simp] theorem drawAny_readLog (n : Nat) (s : State) : (drawAny n s).2.readLog = s.readLog := rfl
@[simp] theorem drawAny_pending (n : Nat) (s : State) : (drawAny n s).2.pending = s.pending := rfl

/-! ### The fault code -/

/-- The first fault's code is kept (R146). -/
theorem raiseFault_faultCode (c : FaultCode) (s : State) :
    (raiseFault c s).faultCode = if s.fault then s.faultCode else faultNumber c := by
  unfold raiseFault; split <;> rfl

/-- Raising a fault writes FAULT and FAULT_CODE alone. -/
theorem raiseFault_frame (c : FaultCode) (s : State) :
    raiseFault c s = { s with fault := true, faultCode := (raiseFault c s).faultCode } := by
  unfold raiseFault
  split
  · rename_i h; rw [← h]
  · rfl

theorem raiseFault_of_fault (c : FaultCode) {s : State} (h : s.fault = true) : raiseFault c s = s := by
  unfold raiseFault; rw [if_pos h]

theorem raiseFault_of_no_fault (c : FaultCode) {s : State} (h : s.fault = false) :
    raiseFault c s = { s with fault := true, faultCode := faultNumber c } := by
  unfold raiseFault; rw [if_neg (by simp [h])]

end Sys2Proof.Machine
end

