-- ==== Sys2Proof/Laws/Mix.lean ====
section
/-! SUPPORT. The laws of the Mix Stage's shared operations: the cursor, the loop, the sum and the clip, and what a mix
leaves in the Mix Buffer and in every other byte. -/

namespace Sys2Proof.Machine

open Sys2Proof

/-! ### The loop -/

/-- The cursor steps modulo the clip's length (R93). -/
theorem nextPos_eq_mod {len pos : Nat} (h : pos < len) : nextPos len pos = (pos + 1) % len := by
  unfold nextPos
  split
  · rename_i he; rw [he, Nat.mod_self]
  · rw [Nat.mod_eq_of_lt (by omega)]

theorem nextPos_lt {len pos : Nat} (h : pos < len) : nextPos len pos < len := by
  rw [nextPos_eq_mod h]; exact Nat.mod_lt _ (by omega)

@[simp] theorem mixLoop_length (s : State) (count i pos : Nat) : (mixLoop s count i pos).1.length = count := by
  induction count generalizing i pos with
  | zero => rfl
  | succ count ih => simp [mixLoop, ih]

/-- The cursor after the loop (R93). -/
theorem mixLoop_pos (s : State) (count i pos : Nat) (h : pos < s.auxLen.toNat) :
    (mixLoop s count i pos).2 = (pos + count) % s.auxLen.toNat := by
  induction count generalizing i pos with
  | zero => simp [mixLoop, Nat.mod_eq_of_lt h]
  | succ count ih =>
    simp only [mixLoop]
    rw [ih (i + 1) _ (nextPos_lt h), nextPos_eq_mod h, Nat.mod_add_mod]
    congr 1
    omega

/-- Element `k` of the loop (R96). -/
theorem mixLoop_getElem (s : State) (count i pos k : Nat) (h : pos < s.auxLen.toNat) (hk : k < count) :
    (mixLoop s count i pos).1[k]'(by simpa using hk) = mixElement s (i + k) ((pos + k) % s.auxLen.toNat) := by
  induction count generalizing i pos k with
  | zero => omega
  | succ count ih =>
    cases k with
    | zero => simp [mixLoop, Nat.mod_eq_of_lt h]
    | succ k =>
      simp only [mixLoop, List.getElem_cons_succ]
      rw [ih (i + 1) _ k (nextPos_lt h) (by omega), nextPos_eq_mod h, Nat.mod_add_mod]
      congr 1
      · omega
      · congr 1; omega

/-! ### The arithmetic -/

theorem toInt_bounds (x : Sample) : -32768 ≤ x.toInt ∧ x.toInt ≤ 32767 := by
  have h₁ := BitVec.le_toInt x
  have h₂ := BitVec.toInt_lt (x := x)
  norm_num at h₁ h₂
  omega

/-- The accumulator holds the exact sum (R91). -/
theorem toInt_mixSum (a p q : Sample) : (mixSum a p q).toInt = a.toInt + p.toInt + q.toInt := by
  have ha := toInt_bounds a
  have hp := toInt_bounds p
  have hq := toInt_bounds q
  unfold mixSum
  rw [BitVec.toInt_add, BitVec.toInt_add, BitVec.toInt_signExtend_of_le (by omega),
    BitVec.toInt_signExtend_of_le (by omega), BitVec.toInt_signExtend_of_le (by omega)]
  simp only [Int.bmod_def]
  omega

/-- The clip on an accumulator is the clip on integers (R92). -/
theorem toInt_clip (mode : ClipMode) (m : Word) : (clip mode m).toInt = clipInt mode m.toInt := by
  unfold clip clipInt
  split
  · cases mode <;> rfl
  · split
    · rfl
    · rw [BitVec.toInt_setWidth, BitVec.toInt_eq_toNat_bmod] at *
      simp only [Int.bmod_def] at *
      have := m.isLt
      omega

/-- What one element of a mix stores, as an integer (R90). -/
theorem toInt_mixElement (s : State) (i pos : Nat) :
    (mixElement s i pos).toInt =
      clipInt s.cfg.clipMode ((auxTerm s pos).toInt + (pcmAt s i).toInt + (synthAt s i).toInt) := by
  unfold mixElement
  rw [toInt_clip, toInt_mixSum]

theorem toInt_auxTerm (s : State) (k : Nat) :
    (auxTerm s ((s.auxPos.toNat + k) % s.auxLen.toNat)).toInt = auxContribution s k := by
  unfold auxTerm auxContribution
  split <;> rfl

/-! ### What a mix leaves -/

/-- Element `i < n` of the Mix Buffer after a mix of `n` elements (R90, R96). -/
theorem mixAt_mixBody (n : Nat) (s : State) (i : Nat) (hi : i < n) (h : s.auxPos.toNat < s.auxLen.toNat) :
    (mixAt (mixBody n s) i).toInt = mixedValue s i := by
  have hl : i < (mixLoop s n 0 s.auxPos.toNat).1.length := by simpa using hi
  have := elemAt_writeElems s mixBase (mixLoop s n 0 s.auxPos.toNat).1 i hl
  have he : mixAt (mixBody n s) i = (mixLoop s n 0 s.auxPos.toNat).1[i] := by
    rw [← this]; rfl
  rw [he, mixLoop_getElem s n 0 _ i h hi, toInt_mixElement, toInt_auxTerm, Nat.zero_add]
  rfl

/-- A mix of `n` elements changes no byte outside `MIXBUF[0 .. n)` (R94). -/
theorem byteAt_mixBody (n : Nat) (s : State) : sameOutside mixBase (2 * n) s (mixBody n s) := by
  intro a ha
  have : byteAt (mixBody n s) a =
      byteAt { s with mem := s.mem.writeBytes mixBase (bytesOf (mixLoop s n 0 s.auxPos.toNat).1) } a := rfl
  rw [this, byteAt_writeBytes, dif_neg]
  simp only [bytesOf_length, mixLoop_length]
  omega

/-- The aux cursor after a mix (R93). -/
theorem auxPos_mixBody (n : Nat) (s : State) (h : s.auxPos.toNat < s.auxLen.toNat) :
    (mixBody n s).auxPos.toNat = (s.auxPos.toNat + n) % s.auxLen.toNat := by
  rw [mixBody_auxPos, mixLoop_pos s n 0 _ h, BitVec.toNat_ofNat]
  have := Nat.mod_lt (s.auxPos.toNat + n) (show 0 < s.auxLen.toNat by omega)
  have := s.auxLen.isLt
  exact Nat.mod_eq_of_lt (by omega)

/-- A mix writes MIXBUF and AUX_POS alone (R90). -/
theorem mixBody_frame (n : Nat) (s : State) :
    mixBody n s = { s with mem := (mixBody n s).mem, auxPos := (mixBody n s).auxPos } := rfl

end Sys2Proof.Machine
end

