-- ==== Sys2Proof/Laws/Sizes.lean ====
section
/-! SUPPORT. What a well-formed configuration gives: the bounds of spec/00_scope.md R11 at every rate. -/

namespace Sys2Proof.Machine

open Sys2Proof

/-- The constraints of R7 and R11 as one conjunction. -/
theorem configWf_iff (c : Config) : configWf c = true ↔
    (1 ≤ c.sampleRate ∧ c.sampleRate ≤ 491520) ∧ 1 ≤ c.fragments ∧
    (∀ f, 1 ≤ cap c f ∧ cap c f ≤ 262144) ∧ mixLenMax c ≤ 32768 ∧
    (mixLenMax c ≤ c.streamMax ∧ c.streamMax ≤ 32768) ∧ (1 ≤ c.auxMax ∧ c.auxMax ≤ 4194304) ∧
    c.base % 0x1000000 = 0 := by
  have hall : (∀ f, 1 ≤ cap c f ∧ cap c f ≤ 262144) ↔
      (1 ≤ cap c .fps30 ∧ cap c .fps30 ≤ 262144) ∧ (1 ≤ cap c .fps60 ∧ cap c .fps60 ≤ 262144) ∧
        (1 ≤ cap c .fps120 ∧ cap c .fps120 ≤ 262144) :=
    ⟨fun h => ⟨h _, h _, h _⟩, fun h f => by cases f; exacts [h.1, h.2.1, h.2.2]⟩
  simp only [configWf, capFits, Bool.and_eq_true, decide_eq_true_eq, hall]
  tauto

theorem cap_pos {c : Config} (h : configWf c = true) (f : Fps) : 1 ≤ cap c f :=
  (((configWf_iff c).1 h).2.2.1 f).1

theorem cap_le {c : Config} (h : configWf c = true) (f : Fps) : cap c f ≤ 262144 :=
  (((configWf_iff c).1 h).2.2.1 f).2

/-- MIXLEN is two elements per frame (R10). -/
theorem mixLen_eq (c : Config) (f : Fps) : mixLen c f = 2 * frames c f := by
  unfold mixLen channels; omega

/-- MIXLEN_MAX is the largest Mix Buffer over the rates (R10). -/
theorem mixLen_le_max (c : Config) (f : Fps) : mixLen c f ≤ mixLenMax c := by
  unfold mixLenMax mixLen frames
  refine Nat.mul_le_mul_right _ (Nat.div_le_div_left ?_ (by decide))
  cases f <;> decide

theorem mixLen_le {c : Config} (h : configWf c = true) (f : Fps) : mixLen c f ≤ 32768 :=
  le_trans (mixLen_le_max c f) ((configWf_iff c).1 h).2.2.2.1

theorem mixLen_le_streamMax {c : Config} (h : configWf c = true) (f : Fps) : mixLen c f ≤ c.streamMax :=
  le_trans (mixLen_le_max c f) ((configWf_iff c).1 h).2.2.2.2.1.1

theorem streamMax_le {c : Config} (h : configWf c = true) : c.streamMax ≤ 32768 :=
  ((configWf_iff c).1 h).2.2.2.2.1.2

theorem auxMax_pos {c : Config} (h : configWf c = true) : 1 ≤ c.auxMax :=
  ((configWf_iff c).1 h).2.2.2.2.2.1.1

theorem auxMax_le {c : Config} (h : configWf c = true) : c.auxMax ≤ 4194304 :=
  ((configWf_iff c).1 h).2.2.2.2.2.1.2

/-- CAP in plain arithmetic (R10). -/
theorem cap_eq (c : Config) (f : Fps) : cap c f = 4 * (baseBlock c f * c.fragments + c.delay) := rfl

/-- OFFSET in plain arithmetic (R10). -/
theorem offset_eq (c : Config) (f : Fps) : offset c f = (c.delay + baseBlock c f) * 4 := rfl

/-- "Because `P_FRAGMENTS >= 1`, `OFFSET(fps) <= CAP(fps)`" (R11). -/
theorem offset_le_cap {c : Config} (h : configWf c = true) (f : Fps) : offset c f ≤ cap c f := by
  have hf := ((configWf_iff c).1 h).2.1
  have : baseBlock c f * 1 ≤ baseBlock c f * c.fragments := Nat.mul_le_mul_left _ hf
  rw [cap_eq, offset_eq]
  omega

end Sys2Proof.Machine
end

