-- ==== Sys2Proof/Laws/Ring.lean ====
section
/-! SUPPORT. The laws of the Delivery Ring's shared operations: the wrapped copy, the drift correction, and the bytes a
ring reset and a push leave. -/

namespace Sys2Proof.Machine

open Sys2Proof

/-! ### The wrapped copy (R102) -/

/-- A write position inside the ring that does not cross its end stays inside the ring. -/
theorem contiguous_bound {cp wc n : Nat} (hcp : 1 ≤ cp) (h : (wc + n) / cp = wc / cp) : wc % cp + n < cp := by
  have h₁ := Nat.div_add_mod wc cp
  have h₂ := Nat.div_add_mod (wc + n) cp
  have h₃ := Nat.mod_lt (wc + n) (show 0 < cp by omega)
  rw [h] at h₂
  omega

/-- A write range that crosses the ring's end reaches it. -/
theorem split_bound {cp wc n : Nat} (hcp : 1 ≤ cp) (h : (wc + n) / cp ≠ wc / cp) : cp ≤ wc % cp + n := by
  by_contra hlt
  apply h
  rw [Nat.div_eq_iff (by omega)]
  have h₁ := Nat.div_add_mod wc cp
  have h₂ := Nat.mod_lt wc (show 0 < cp by omega)
  rw [Nat.mul_comm] at h₁
  omega

/-- The ring index of byte `j` of a copy at write cursor `wc`. -/
theorem ringIndex {cp wc j : Nat} (hcp : 1 ≤ cp) (hj : j ≤ cp) :
    (wc + j) % cp = if wc % cp + j < cp then wc % cp + j else wc % cp + j - cp := by
  have h₁ := Nat.mod_lt wc (show 0 < cp by omega)
  rw [Nat.add_mod]
  split
  · rename_i h
    rw [Nat.mod_eq_of_lt (a := j) (by omega), Nat.mod_eq_of_lt h]
  · rename_i h
    rcases Nat.eq_or_lt_of_le hj with rfl | hlt
    · rw [Nat.mod_self, Nat.add_zero, Nat.mod_mod, Nat.add_sub_cancel]
    · rw [Nat.mod_eq_of_lt (a := j) hlt, Nat.mod_eq_sub_mod (by omega), Nat.mod_eq_of_lt (by omega)]

/-- Byte `j` of a copy stands at ring index `(wc + j) mod cap` (R107). -/
theorem lookup_ringCopy (m : Memory) (cp wc : Nat) (bs : List Byte) (hcp : 1 ≤ cp) (hlen : bs.length ≤ cp)
    (j : Nat) (hj : j < bs.length) :
    (ringCopy m cp wc bs).lookup (ringBase + (wc + j) % cp) = some bs[j] := by
  have hm := Nat.mod_lt wc (show 0 < cp by omega)
  by_cases hjt : wc % cp + j < cp
  · rw [ringIndex hcp (by omega), if_pos hjt]
    unfold ringCopy
    by_cases h : (wc + bs.length) / cp = wc / cp
    · rw [if_pos h, Memory.lookup_writeBytes, if_pos (by omega),
        show ringBase + (wc % cp + j) - (ringBase + wc % cp) = j by omega]
      exact List.getElem?_eq_getElem hj
    · have hb := split_bound hcp h
      rw [if_neg h, Memory.lookup_writeBytes, List.length_drop, if_neg (by omega), Memory.lookup_writeBytes,
        List.length_take, if_pos (by omega),
        show ringBase + (wc % cp + j) - (ringBase + wc % cp) = j by omega, List.getElem?_take,
        if_pos (by omega)]
      exact List.getElem?_eq_getElem hj
  · rw [ringIndex hcp (by omega), if_neg hjt]
    unfold ringCopy
    by_cases h : (wc + bs.length) / cp = wc / cp
    · have hb := contiguous_bound hcp h
      omega
    · rw [if_neg h, Memory.lookup_writeBytes, List.length_drop, if_pos (by omega),
        show ringBase + (wc % cp + j - cp) - ringBase = j - (cp - wc % cp) by omega,
        List.getElem?_drop, show cp - wc % cp + (j - (cp - wc % cp)) = j by omega]
      exact List.getElem?_eq_getElem hj

/-- Every other byte is as it was (R107). -/
theorem lookup_ringCopy_other (m : Memory) (cp wc : Nat) (bs : List Byte) (hcp : 1 ≤ cp) (hlen : bs.length ≤ cp)
    (x : Nat) (hx : ∀ j, j < bs.length → x ≠ ringBase + (wc + j) % cp) :
    (ringCopy m cp wc bs).lookup x = m.lookup x := by
  have hm := Nat.mod_lt wc (show 0 < cp by omega)
  have key : ∀ j, j < bs.length →
      x ≠ ringBase + (if wc % cp + j < cp then wc % cp + j else wc % cp + j - cp) := by
    intro j hj
    rw [← ringIndex hcp (by omega)]
    exact hx j hj
  unfold ringCopy
  by_cases h : (wc + bs.length) / cp = wc / cp
  · have hb := contiguous_bound hcp h
    rw [if_pos h, Memory.lookup_writeBytes, if_neg]
    intro hin
    have := key (x - (ringBase + wc % cp)) (by omega)
    rw [if_pos (by omega)] at this
    omega
  · have hb := split_bound hcp h
    rw [if_neg h, Memory.lookup_writeBytes, List.length_drop, if_neg, Memory.lookup_writeBytes,
      List.length_take, if_neg]
    · intro hin
      have := key (x - (ringBase + wc % cp)) (by omega)
      rw [if_pos (by omega)] at this
      omega
    · intro hin
      have := key (x - ringBase + (cp - wc % cp)) (by omega)
      rw [if_neg (by omega)] at this
      omega

/-! ### Drift correction (R104) -/

/-- A read cursor that is not above the capacity is not corrected. -/
theorem drift_of_le {cp fuel : Nat} {w : Int} {r : Nat} (h : r ≤ cp) : drift cp fuel w r = (w, r) := by
  cases fuel with
  | zero => rfl
  | succ fuel => simp only [drift]; rw [if_neg (by omega)]

/-- A read cursor above the capacity, and at most twice it, is corrected once. -/
theorem drift_of_lt {cp fuel : Nat} {w : Int} {r : Nat} (h₁ : cp < r) (h₂ : r ≤ 2 * cp) (hf : 1 ≤ fuel) :
    drift cp fuel w r = (w - cp, r - cp) := by
  cases fuel with
  | zero => omega
  | succ fuel => simp only [drift]; rw [if_pos h₁, drift_of_le (by omega)]

/-- Drift correction keeps the difference of the cursors (R109). -/
theorem drift_diff (cp fuel : Nat) (w : Int) (r : Nat) :
    (drift cp fuel w r).1 - (drift cp fuel w r).2 = w - r := by
  induction fuel generalizing w r with
  | zero => rfl
  | succ fuel ih =>
    simp only [drift]
    split
    · rw [ih]; omega
    · rfl

/-- Once it stops, the read cursor is at most the capacity. -/
theorem drift_le {cp fuel : Nat} {w : Int} {r : Nat} (hcp : 1 ≤ cp) (hf : r ≤ fuel) :
    (drift cp fuel w r).2 ≤ cp := by
  induction fuel generalizing w r with
  | zero => simp only [drift]; omega
  | succ fuel ih =>
    simp only [drift]
    split
    · exact ih (by omega)
    · omega

/-! ### The cursors after a push -/

/-- The cursors after a push in a state whose read cursor is in bounds (R103, R104, R108). -/
theorem advanceRing_cursors {s : State} {bw : Nat} (hwf : configWf s.cfg = true)
    (hbw : bw ≤ cap s.cfg s.fps) (hr : s.rcur.toNat ≤ cap s.cfg s.fps)
    (hw : s.wcur.toNat = s.rcur.toNat + offset s.cfg s.fps) :
    (advanceRing bw s).rcur.toNat =
        (if cap s.cfg s.fps < s.rcur.toNat + bw then s.rcur.toNat + bw - cap s.cfg s.fps else s.rcur.toNat + bw) ∧
      (advanceRing bw s).wcur.toNat = (advanceRing bw s).rcur.toNat + offset s.cfg s.fps := by
  have h1 := cap_pos hwf s.fps
  have h2 := cap_le hwf s.fps
  have h3 := offset_le_cap hwf s.fps
  by_cases h : cap s.cfg s.fps < s.rcur.toNat + bw
  · have hd := drift_of_lt (fuel := s.rcur.toNat + bw) (w := ((s.wcur.toNat + bw : Nat) : Int)) h (by omega) (by omega)
    simp only [advanceRing, hd, if_pos h, BitVec.toNat_ofNat, BitVec.toNat_ofInt]
    omega
  · have hd := drift_of_le (fuel := s.rcur.toNat + bw) (w := ((s.wcur.toNat + bw : Nat) : Int))
      (show s.rcur.toNat + bw ≤ cap s.cfg s.fps by omega)
    simp only [advanceRing, hd, if_neg h, BitVec.toNat_ofNat, BitVec.toNat_ofInt]
    omega

/-! ### The bytes after a push -/

@[simp] theorem mixBytes_length (s : State) (k : Nat) : (mixBytes s k).length = k := by simp [mixBytes]

@[simp] theorem mixBytes_getElem (s : State) (k j : Nat) (h : j < (mixBytes s k).length) :
    (mixBytes s k)[j] = mbuf8 s j := by simp [mixBytes]

/-- The ring byte a push writes (R107). -/
theorem ringAt_advanceRing {s : State} {bw : Nat} (hwf : configWf s.cfg = true) (hbw : bw ≤ cap s.cfg s.fps)
    (j : Nat) (hj : j < bw) :
    ringAt (advanceRing bw s) ((s.wcur.toNat + j) % cap s.cfg s.fps) = mbuf8 s j := by
  have := lookup_ringCopy s.mem (cap s.cfg s.fps) s.wcur.toNat (mixBytes s bw) (cap_pos hwf _)
    (by simpa using hbw) j (by simpa using hj)
  simp only [ringAt, byteAt, advanceRing_mem, this, mixBytes_getElem]
  rfl

/-- Every other byte is as it was. -/
theorem byteAt_advanceRing_other {s : State} {bw : Nat} (hwf : configWf s.cfg = true)
    (hbw : bw ≤ cap s.cfg s.fps) (x : Nat)
    (hx : ∀ j, j < bw → x ≠ ringBase + (s.wcur.toNat + j) % cap s.cfg s.fps) :
    byteAt (advanceRing bw s) x = byteAt s x := by
  have := lookup_ringCopy_other s.mem (cap s.cfg s.fps) s.wcur.toNat (mixBytes s bw) (cap_pos hwf _)
    (by simpa using hbw) x (by simpa using hx)
  simp only [byteAt, advanceRing_mem, this, advanceRing_epoch]

/-- A push changes no byte outside RING, whatever its length. -/
theorem byteAt_advanceRing_outside {s : State} {bw : Nat} (hwf : configWf s.cfg = true)
    (hbw : bw ≤ cap s.cfg s.fps) : 
    ∀ x, x < ringBase ∨ ringBase + cap s.cfg s.fps ≤ x → byteAt (advanceRing bw s) x = byteAt s x := by
  intro x hx
  refine byteAt_advanceRing_other hwf hbw x ?_
  intro j _
  have := Nat.mod_lt (s.wcur.toNat + j) (show 0 < cap s.cfg s.fps from cap_pos hwf _)
  omega

/-! ### The bytes after a ring reset (R100) -/

/-- Every byte after a ring reset: zero in the live Mix Buffer and in RING, as it was elsewhere. -/
theorem byteAt_ringReset (s : State) (a : Nat) :
    byteAt (ringReset s) a =
      if (mixBase ≤ a ∧ a < mixBase + 2 * mixLen s.cfg s.fps) ∨ (ringBase ≤ a ∧ a < ringBase + cap s.cfg s.fps)
      then 0 else byteAt s a := by
  simp only [byteAt, ringReset, Memory.lookup_writeBytes, List.length_replicate, List.getElem?_replicate]
  by_cases h₁ : mixBase ≤ a ∧ a < mixBase + 2 * mixLen s.cfg s.fps
  · rw [if_pos h₁, if_pos (by omega), if_pos (Or.inl h₁)]
    rfl
  · rw [if_neg h₁]
    by_cases h₂ : ringBase ≤ a ∧ a < ringBase + cap s.cfg s.fps
    · rw [if_pos h₂, if_pos (by omega), if_pos (Or.inr h₂)]
      rfl
    · rw [if_neg h₂, if_neg (by tauto)]

/-- A ring reset keeps the canonical form. -/
theorem wf_ringReset {s : State} (h : s.mem.wf = true) : (ringReset s).mem.wf = true :=
  Memory.wf_writeBytes _ _ (Memory.wf_writeBytes _ _ h)

/-- A ring reset writes these fields alone. -/
theorem ringReset_frame (s : State) :
    ringReset s = { s with
      mem := (ringReset s).mem, rcur := 0, wcur := BitVec.ofNat 32 (offset s.cfg s.fps), bufsValid := true,
      cfgStale := false } := rfl

/-- A push writes RING, the cursors, SINK and DRAIN_COUNT alone (R101). -/
theorem pushBody_frame (n : Nat) (s : State) :
    pushBody n s = { s with
      mem := (pushBody n s).mem, wcur := (pushBody n s).wcur, rcur := (pushBody n s).rcur,
      sink := (pushBody n s).sink, drainCount := s.drainCount + 1 } := rfl

end Sys2Proof.Machine
end

