-- ==== Sys2Proof/Laws/Exec.lean ====
section
/-! SUPPORT. What a command, a bus access and a step can do: one inversion lemma each, which later proofs cite instead of
unfolding the definitions. -/

namespace Sys2Proof.Machine

open Sys2Proof

theorem active_iff (s : State) : active s = true ↔ s.enabled = true ∧ s.paused = false := by
  simp [active]

theorem streamTooLong_iff (s : State) (n : Nat) : streamTooLong s n = true ↔ mixLen s.cfg s.fps < n := by
  simp [streamTooLong]

theorem ringOverrun_iff (s : State) (n : Nat) : ringOverrun s n = true ↔ cap s.cfg s.fps < 2 * n := by
  unfold ringOverrun; exact decide_eq_true_iff

/-! ### The gated commands -/

/-- Everything MIX can do (R90, R147). -/
theorem execMix_cases (n : Nat) (s : State) :
    (active s = false ∧ execMix n s = .next s) ∨
    (active s = true ∧ s.cfgStale = true ∧ execMix n s = .next (raiseFault .cfgStale s)) ∨
    (active s = true ∧ s.cfgStale = false ∧ mixLen s.cfg s.fps < n ∧
      execMix n s = .next (raiseFault .streamTooLong s)) ∨
    (active s = true ∧ s.cfgStale = false ∧ n ≤ mixLen s.cfg s.fps ∧ execMix n s = .next (mixBody n s)) := by
  unfold execMix
  cases ha : active s
  · exact .inl ⟨rfl, rfl⟩
  · cases hs : s.cfgStale
    · by_cases hn : streamTooLong s n = true
      · exact .inr (.inr (.inl ⟨rfl, rfl, (streamTooLong_iff s n).1 hn, by simp [hn]⟩))
      · have := mt (streamTooLong_iff s n).2 hn
        exact .inr (.inr (.inr ⟨rfl, rfl, by omega, by simp [hn]⟩))
    · exact .inr (.inl ⟨rfl, rfl, rfl⟩)

/-- Everything PUSH can do (R101, R147). -/
theorem execPush_cases (n : Nat) (s : State) :
    (active s = false ∧ execPush n s = .next s) ∨
    (active s = true ∧ s.cfgStale = true ∧ execPush n s = .next (raiseFault .cfgStale s)) ∨
    (active s = true ∧ s.cfgStale = false ∧ mixLen s.cfg s.fps < n ∧
      execPush n s = .next (raiseFault .streamTooLong s)) ∨
    (active s = true ∧ s.cfgStale = false ∧ n ≤ mixLen s.cfg s.fps ∧ cap s.cfg s.fps < 2 * n ∧
      execPush n s = .next (raiseFault .ringOverrun s)) ∨
    (active s = true ∧ s.cfgStale = false ∧ n ≤ mixLen s.cfg s.fps ∧ 2 * n ≤ cap s.cfg s.fps ∧
      execPush n s = .next (pushBody n s)) := by
  unfold execPush
  cases ha : active s
  · exact .inl ⟨rfl, rfl⟩
  · cases hs : s.cfgStale
    · by_cases hn : streamTooLong s n = true
      · exact .inr (.inr (.inl ⟨rfl, rfl, (streamTooLong_iff s n).1 hn, by simp [hn]⟩))
      · have h₁ := mt (streamTooLong_iff s n).2 hn
        by_cases ho : ringOverrun s n = true
        · exact .inr (.inr (.inr (.inl ⟨rfl, rfl, by omega, (ringOverrun_iff s n).1 ho, by simp [hn, ho]⟩)))
        · have h₂ := mt (ringOverrun_iff s n).2 ho
          exact .inr (.inr (.inr (.inr ⟨rfl, rfl, by omega, by omega, by simp [hn, ho]⟩)))
    · exact .inr (.inl ⟨rfl, rfl, rfl⟩)

/-- Everything TICK can do (R137, R147). -/
theorem execTick_cases (n : Nat) (s : State) :
    (active s = false ∧ execTick n s = .next s) ∨
    (active s = true ∧ s.cfgStale = true ∧ execTick n s = .next (raiseFault .cfgStale s)) ∨
    (active s = true ∧ s.cfgStale = false ∧ mixLen s.cfg s.fps < n ∧
      execTick n s = .next (raiseFault .streamTooLong s)) ∨
    (active s = true ∧ s.cfgStale = false ∧ n ≤ mixLen s.cfg s.fps ∧ cap s.cfg s.fps < 2 * n ∧
      execTick n s = .next (raiseFault .ringOverrun s)) ∨
    (active s = true ∧ s.cfgStale = false ∧ n ≤ mixLen s.cfg s.fps ∧ 2 * n ≤ cap s.cfg s.fps ∧
      execTick n s = .next (pushBody n (mixBody n s))) := by
  unfold execTick
  cases ha : active s
  · exact .inl ⟨rfl, rfl⟩
  · cases hs : s.cfgStale
    · by_cases hn : streamTooLong s n = true
      · exact .inr (.inr (.inl ⟨rfl, rfl, (streamTooLong_iff s n).1 hn, by simp [hn]⟩))
      · have h₁ := mt (streamTooLong_iff s n).2 hn
        by_cases ho : ringOverrun s n = true
        · exact .inr (.inr (.inr (.inl ⟨rfl, rfl, by omega, (ringOverrun_iff s n).1 ho, by simp [hn, ho]⟩)))
        · have h₂ := mt (ringOverrun_iff s n).2 ho
          exact .inr (.inr (.inr (.inr ⟨rfl, rfl, by omega, by omega, by simp [hn, ho]⟩)))
    · exact .inr (.inl ⟨rfl, rfl, rfl⟩)

/-! ### The other commands -/

/-- Everything SET_FPS can do (R135). -/
theorem execSetFps_cases (v : Nat) (s : State) :
    (rateOf v = none ∧ execSetFps v s = .next (raiseFault .badFps s)) ∨
    (rateOf v = some s.fps ∧ execSetFps v s = .next s) ∨
    (∃ f, rateOf v = some f ∧ f ≠ s.fps ∧ s.enabled = true ∧
      execSetFps v s = .next { s with fps := f, cfgStale := true, bufsValid := false }) ∨
    (∃ f, rateOf v = some f ∧ f ≠ s.fps ∧ s.enabled = false ∧ execSetFps v s = .next { s with fps := f }) := by
  unfold execSetFps
  cases hr : rateOf v with
  | none => exact .inl ⟨rfl, rfl⟩
  | some f =>
    by_cases hf : f = s.fps
    · exact .inr (.inl ⟨by rw [hf], by simp [hf]⟩)
    · cases he : s.enabled
      · exact .inr (.inr (.inr ⟨f, rfl, hf, rfl, by simp [hf]⟩))
      · exact .inr (.inr (.inl ⟨f, rfl, hf, rfl, by simp [hf]⟩))

/-- A rate is found exactly for its own number (R135). -/
theorem rateOf_eq_some {v : Nat} {f : Fps} : rateOf v = some f ↔ v = fpsNat f := by
  unfold rateOf
  by_cases h30 : v = 30
  · subst h30; cases f <;> decide
  · by_cases h60 : v = 60
    · subst h60; cases f <;> decide
    · by_cases h120 : v = 120
      · subst h120; cases f <;> decide
      · cases f <;> simp [h30, h60, h120, fpsNat]

theorem rateOf_eq_none {v : Nat} : rateOf v = none ↔ v ≠ 30 ∧ v ≠ 60 ∧ v ≠ 120 := by
  unfold rateOf
  by_cases h30 : v = 30
  · simp [h30]
  · by_cases h60 : v = 60
    · simp [h60]
    · by_cases h120 : v = 120 <;> simp [h30, h60, h120]

/-- Everything AUX_LOAD can do (R115, R116). -/
theorem execAuxLoad_cases (l : Nat) (s : State) :
    ((l = 0 ∨ s.cfg.auxMax < l) ∧ execAuxLoad l s = .next { s with auxErr := true }) ∨
    (1 ≤ l ∧ l ≤ s.cfg.auxMax ∧ execAuxLoad l s =
      .next { s with auxLen := BitVec.ofNat 32 l, auxPos := 0, auxEmpty := false, auxErr := false }) := by
  unfold execAuxLoad loadFails
  by_cases h : l = 0 ∨ s.cfg.auxMax < l
  · exact .inl ⟨h, by simp [h]⟩
  · exact .inr ⟨by omega, by omega, by simp [h]⟩

/-! ### Every command -/

/-- Everything a command can do: leave the state as it is, raise a fault, or have its own effect. -/
theorem exec_cases {i : Instr} {s t : State} (h : exec i s = .next t) :
    t = s ∨
    (∃ c, t = raiseFault c s) ∨
    (i = .enable ∧ t = ringReset { s with enabled := true, paused := false }) ∨
    (i = .disable ∧ t = { s with enabled := false, paused := false, cfgStale := false, bufsValid := false }) ∨
    (i = .pause ∧ s.enabled = true ∧ t = { s with paused := true }) ∨
    (i = .resume ∧ s.enabled = true ∧ t = ringReset { s with paused := false }) ∨
    (i = .reset ∧ s.enabled = true ∧ t = ringReset s) ∨
    (∃ f, i = .setFps (fpsNat f) ∧ f ≠ s.fps ∧ s.enabled = true ∧
      t = { s with fps := f, cfgStale := true, bufsValid := false }) ∨
    (∃ f, i = .setFps (fpsNat f) ∧ f ≠ s.fps ∧ s.enabled = false ∧ t = { s with fps := f }) ∨
    (∃ n, i = .mix n ∧ active s = true ∧ s.cfgStale = false ∧ n ≤ mixLen s.cfg s.fps ∧ t = mixBody n s) ∨
    (∃ n, i = .push n ∧ active s = true ∧ s.cfgStale = false ∧ n ≤ mixLen s.cfg s.fps ∧ 2 * n ≤ cap s.cfg s.fps ∧
      t = pushBody n s) ∨
    (∃ n, i = .tick n ∧ active s = true ∧ s.cfgStale = false ∧ n ≤ mixLen s.cfg s.fps ∧ 2 * n ≤ cap s.cfg s.fps ∧
      t = pushBody n (mixBody n s)) ∨
    (∃ l, i = .auxLoad l ∧ (l = 0 ∨ s.cfg.auxMax < l) ∧ t = { s with auxErr := true }) ∨
    (∃ l, i = .auxLoad l ∧ 1 ≤ l ∧ l ≤ s.cfg.auxMax ∧
      t = { s with auxLen := BitVec.ofNat 32 l, auxPos := 0, auxEmpty := false, auxErr := false }) ∨
    (i = .auxClear ∧ t = { s with auxEmpty := true, auxLen := 1, auxPos := 0, auxErr := false }) := by
  cases i with
  | nop => cases h; exact .inl rfl
  | enable => cases h; simp
  | disable => cases h; simp
  | pause =>
    change execPause s = _ at h
    unfold execPause at h
    split at h <;> cases h
    · simp [*]
    · exact .inl rfl
  | resume =>
    change execResume s = _ at h
    unfold execResume at h
    split at h <;> cases h
    · simp [*]
    · exact .inl rfl
  | reset =>
    change execReset s = _ at h
    unfold execReset at h
    split at h <;> cases h
    · simp [*]
    · exact .inl rfl
  | setFps v =>
    change execSetFps v s = _ at h
    rcases execSetFps_cases v s with ⟨_, h'⟩ | ⟨_, h'⟩ | ⟨f, hr, hf, he, h'⟩ | ⟨f, hr, hf, he, h'⟩ <;>
      rw [h'] at h <;> cases h
    · exact .inr (.inl ⟨_, rfl⟩)
    · exact .inl rfl
    · rw [rateOf_eq_some.1 hr]
      exact .inr (.inr (.inr (.inr (.inr (.inr (.inr (.inl ⟨f, rfl, hf, he, rfl⟩)))))))
    · rw [rateOf_eq_some.1 hr]
      exact .inr (.inr (.inr (.inr (.inr (.inr (.inr (.inr (.inl ⟨f, rfl, hf, he, rfl⟩))))))))
  | mix n =>
    change execMix n s = _ at h
    rcases execMix_cases n s with ⟨_, h'⟩ | ⟨_, _, h'⟩ | ⟨_, _, _, h'⟩ | ⟨_, _, _, h'⟩ <;> rw [h'] at h <;> cases h
    · exact .inl rfl
    · exact .inr (.inl ⟨_, rfl⟩)
    · exact .inr (.inl ⟨_, rfl⟩)
    · simp [*]
  | push n =>
    change execPush n s = _ at h
    rcases execPush_cases n s with ⟨_, h'⟩ | ⟨_, _, h'⟩ | ⟨_, _, _, h'⟩ | ⟨_, _, _, _, h'⟩ | ⟨_, _, _, _, h'⟩ <;>
      rw [h'] at h <;> cases h
    · exact .inl rfl
    · exact .inr (.inl ⟨_, rfl⟩)
    · exact .inr (.inl ⟨_, rfl⟩)
    · exact .inr (.inl ⟨_, rfl⟩)
    · simp [*]
  | tick n =>
    change execTick n s = _ at h
    rcases execTick_cases n s with ⟨_, h'⟩ | ⟨_, _, h'⟩ | ⟨_, _, _, h'⟩ | ⟨_, _, _, _, h'⟩ | ⟨_, _, _, _, h'⟩ <;>
      rw [h'] at h <;> cases h
    · exact .inl rfl
    · exact .inr (.inl ⟨_, rfl⟩)
    · exact .inr (.inl ⟨_, rfl⟩)
    · exact .inr (.inl ⟨_, rfl⟩)
    · simp [*]
  | auxLoad l =>
    change execAuxLoad l s = _ at h
    rcases execAuxLoad_cases l s with ⟨_, h'⟩ | ⟨_, _, h'⟩ <;> rw [h'] at h <;> cases h <;> simp [*]
  | auxClear => cases h; simp

/-! ### Bus accesses -/

/-- Everything `execute` can do (R75, R148). -/
theorem execute_cases (w : Word) (s : State) :
    (s.fault = true ∧ execute w s = .next s) ∨
    (s.fault = false ∧ ∃ i, decode w = .command i ∧ execute w s = exec i s) ∨
    (s.fault = false ∧ ∃ r, decode w = .illegal r ∧ execute w s = .next (raiseFault .illegalCmd s)) := by
  unfold execute
  cases hf : s.fault
  · cases hd : decode w with
    | command i => exact .inr (.inl ⟨rfl, i, rfl, by simp⟩)
    | illegal r => exact .inr (.inr ⟨rfl, r, rfl, by simp⟩)
  · exact .inl ⟨rfl, rfl⟩

/-- Everything a host write can do (R59). -/
theorem memWrite_cases (n off : Nat) (v : Word) (s : State) :
    (accessOk s off n = false ∧ memWrite n off v s = .next (raiseFault .busError s)) ∨
    (accessOk s off n = true ∧ off = 0 ∧ region off = .regs ∧ memWrite n off v s = execute v s) ∨
    (accessOk s off n = true ∧
      ((region off = .regs ∧ off ≠ 0) ∨ region off = .mixbuf ∨ region off = .ring) ∧ memWrite n off v s = .next s) ∨
    (accessOk s off n = true ∧ (region off = .pcmIn ∨ region off = .synthIn ∨ region off = .auxRam) ∧
      memWrite n off v s = .next (s.store off ((List.range n).map (byteOf v)))) ∨
    (region off = .reserved ∧ memWrite n off v s = .next (raiseFault .busError s)) := by
  unfold memWrite
  cases ha : accessOk s off n
  · exact .inl ⟨rfl, rfl⟩
  · cases hr : region off
    · by_cases h0 : off = 0
      · exact .inr (.inl ⟨rfl, h0, rfl, by simp [h0]⟩)
      · exact .inr (.inr (.inl ⟨rfl, .inl ⟨rfl, h0⟩, by simp [h0]⟩))
    · exact .inr (.inr (.inr (.inl ⟨rfl, .inl rfl, rfl⟩)))
    · exact .inr (.inr (.inr (.inl ⟨rfl, .inr (.inl rfl), rfl⟩)))
    · exact .inr (.inr (.inl ⟨rfl, .inr (.inl rfl), rfl⟩))
    · exact .inr (.inr (.inl ⟨rfl, .inr (.inr rfl), rfl⟩))
    · exact .inr (.inr (.inr (.inl ⟨rfl, .inr (.inr rfl), rfl⟩)))
    · exact .inr (.inr (.inr (.inr ⟨rfl, rfl⟩)))

/-- The state after a host read: as it was, or with BUS_ERROR raised, and at most one more `any` draw (R58, R61). -/
theorem memRead_state (n off : Nat) (s : State) :
    (accessOk s off n = false ∧ (memRead n off s).2 = (drawAny n (raiseFault .busError s)).2) ∨
    (accessOk s off n = true ∧ ((memRead n off s).2 = s ∨ (memRead n off s).2 = (drawAny n s).2)) := by
  unfold memRead
  cases ha : accessOk s off n
  · exact .inl ⟨rfl, rfl⟩
  · right
    refine ⟨rfl, ?_⟩
    by_cases hr : region off = .regs
    · simp [hr]
    · by_cases hu : unspecified s off n = true
      · simp [hr, hu]
      · simp [hr, hu]

/-! ### Steps -/

/-- Everything a step that answers a next state can have done. -/
theorem step_cases {s t : State} (h : step s = .next t) :
    configWf s.cfg = true ∧
    ((s.pending = [] ∧ t = s) ∨
     (∃ e rest, s.pending = e :: rest ∧ runEvent e { s with pending := rest } = .next t)) := by
  unfold step hostStep at h
  cases hc : configWf s.cfg
  · simp [hc] at h
  · refine ⟨rfl, ?_⟩
    simp only [hc, Bool.not_true, Bool.false_eq_true, if_false] at h
    cases hp : s.pending with
    | nil =>
      simp only [hp] at h
      exact .inl ⟨rfl, by injection h with h; exact h.symm⟩
    | cons e rest =>
      simp only [hp] at h
      exact .inr ⟨e, rest, rfl, h⟩

/-- A host read that answers a next state. -/
theorem busRead_next {n addr : Nat} {s t : State} (h : busRead n addr s = .next t) :
    ∃ off, busOffset s.cfg addr = some off ∧
      t = recordRead ⟨n, off, (memRead n off s).1⟩ (memRead n off s).2 := by
  unfold busRead at h
  cases ho : busOffset s.cfg addr with
  | none => simp [ho] at h
  | some off =>
    simp only [ho] at h
    injection h with h
    exact ⟨off, rfl, h.symm⟩

/-- A host write that answers a next state. -/
theorem busWrite_next {n addr : Nat} {v : Word} {s t : State} (h : busWrite n addr v s = .next t) :
    ∃ off, busOffset s.cfg addr = some off ∧ memWrite n off v s = .next t := by
  unfold busWrite at h
  cases ho : busOffset s.cfg addr with
  | none => simp [ho] at h
  | some off => exact ⟨off, rfl, by simpa [ho] using h⟩

/-- Everything a step can do, event by event: `u` is the state that has taken the event off its list. -/
theorem step_effect {s t : State} (h : step s = .next t) :
    configWf s.cfg = true ∧
    ((s.pending = [] ∧ t = s) ∨
     ∃ e rest u, s.pending = e :: rest ∧ u = { s with pending := rest } ∧
      ((∃ r, t = recordRead r u ∨ t = recordRead r (drawAny r.width u).2 ∨
          t = recordRead r (drawAny r.width (raiseFault .busError u)).2) ∨
       t = u ∨
       (∃ c, t = raiseFault c u) ∨
       (∃ i, u.fault = false ∧ exec i u = .next t) ∨
       (∃ off bs, accessOk u off bs.length = true ∧
          (region off = .pcmIn ∨ region off = .synthIn ∨ region off = .auxRam) ∧ t = u.store off bs) ∨
       (e = .powerOnReset ∧ t = powerOnReset u))) := by
  obtain ⟨hc, ⟨hp, rfl⟩ | ⟨e, rest, hp, hr⟩⟩ := step_cases h
  · exact ⟨hc, .inl ⟨hp, rfl⟩⟩
  · refine ⟨hc, .inr ⟨e, rest, _, hp, rfl, ?_⟩⟩
    generalize ({ s with pending := rest } : State) = u at hr
    cases e with
    | read n addr =>
      obtain ⟨off, _, rfl⟩ := busRead_next hr
      have hs := memRead_state n off u
      refine .inl ⟨⟨n, off, (memRead n off u).1⟩, ?_⟩
      generalize (memRead n off u).1 = v
      rcases hs with ⟨_, h⟩ | ⟨_, h | h⟩ <;> rw [h]
      · exact .inr (.inr rfl)
      · exact .inl rfl
      · exact .inr (.inl rfl)
    | write n addr v =>
      obtain ⟨off, _, h⟩ := busWrite_next hr
      right
      rcases memWrite_cases n off v u with ⟨_, h'⟩ | ⟨_, _, _, h'⟩ | ⟨_, _, h'⟩ | ⟨ha, hg, h'⟩ | ⟨_, h'⟩ <;> rw [h'] at h
      · cases h; exact .inr (.inl ⟨_, rfl⟩)
      · rcases execute_cases v u with ⟨_, h''⟩ | ⟨hf, i, _, h''⟩ | ⟨_, _, _, h''⟩ <;> rw [h''] at h
        · cases h; exact .inl rfl
        · exact .inr (.inr (.inl ⟨i, hf, h⟩))
        · cases h; exact .inr (.inl ⟨_, rfl⟩)
      · cases h; exact .inl rfl
      · cases h
        exact .inr (.inr (.inr (.inl ⟨off, _, by simpa using ha, hg, rfl⟩)))
      · cases h; exact .inr (.inl ⟨_, rfl⟩)
    | powerOnReset =>
      cases hr
      exact .inr (.inr (.inr (.inr (.inr ⟨rfl, rfl⟩))))

end Sys2Proof.Machine
end

