-- ==== Sys2Proof/Laws/Bus.lean ====
section
/-! SUPPORT. The laws of the bus: the rows of the window map, the access check, and the values bytes compose to. -/

namespace Sys2Proof.Machine

open Sys2Proof

/-- The offsets of a row of R51. -/
theorem region_bounds (off : Nat) :
    match region off with
    | .regs => off < 0x001000
    | .pcmIn => 0x010000 ≤ off ∧ off < 0x020000
    | .synthIn => 0x020000 ≤ off ∧ off < 0x030000
    | .mixbuf => 0x030000 ≤ off ∧ off < 0x040000
    | .ring => 0x040000 ≤ off ∧ off < 0x080000
    | .auxRam => 0x800000 ≤ off ∧ off < 0x1000000
    | .reserved => (0x001000 ≤ off ∧ off < 0x010000) ∨ (0x080000 ≤ off ∧ off < 0x800000) ∨ 0x1000000 ≤ off := by
  unfold region
  split <;> rename_i h <;> split_ifs at h <;> omega

/-- The access check, clause by clause (R59). -/
theorem accessOk_iff (s : State) (off n : Nat) : accessOk s off n = true ↔
    (n = 1 ∨ n = 2 ∨ n = 4) ∧ off % n = 0 ∧ off + n ≤ regionBase (region off) + liveSize s (region off) ∧
      (region off = .regs → n = 4) := by
  simp only [accessOk, widthOk, live, Bool.and_eq_true, decide_eq_true_eq, Bool.not_eq_true', Bool.and_eq_false_iff,
    decide_eq_false_iff_not, and_assoc]
  tauto

/-- A legal access is within the live part of its row, and no legal access is to a reserved row. -/
theorem accessOk_region {s : State} {off n : Nat} (h : accessOk s off n = true) :
    region off ≠ .reserved ∧ 1 ≤ n ∧ off + n ≤ regionBase (region off) + liveSize s (region off) := by
  rw [accessOk_iff] at h
  obtain ⟨hn, _, hl, _⟩ := h
  refine ⟨fun hr => ?_, by omega, hl⟩
  rw [hr] at hl
  simp only [regionBase, liveSize] at hl
  omega

/-- A legal access to an input window or to AUX_RAM covers no byte of MIXBUF or RING. -/
theorem dataWindow_bounds {s : State} {off n : Nat} (hc : configWf s.cfg = true) (h : accessOk s off n = true)
    (hr : region off = .pcmIn ∨ region off = .synthIn ∨ region off = .auxRam) :
    (0x010000 ≤ off ∧ off + n ≤ 0x030000) ∨ 0x800000 ≤ off := by
  have hl := (accessOk_region h).2.2
  have hb := region_bounds off
  have := streamMax_le hc
  rcases hr with hr | hr | hr <;> rw [hr] at hb hl <;> simp only [regionBase, liveSize, pcmBase, synthBase] at hl <;> omega

/-- The two exceptions of R56, as conditions on the offset and the state. -/
theorem unspecified_iff (s : State) (off n : Nat) : unspecified s off n = true ↔
    (region off = .mixbuf ∧ (s.bufsValid = false ∨ mixLen s.cfg s.fps ≤ (off + n - 1 - mixBase) / 2)) ∨
    (region off = .ring ∧ s.bufsValid = false) := by
  unfold unspecified
  cases region off <;> simp

/-- A legal read of a register. -/
theorem memRead_register {s : State} {off n : Nat} (h : accessOk s off n = true) (hr : region off = .regs) :
    memRead n off s = ((registerValue s off).toNat, s) := by
  simp [memRead, h, hr]

/-- A legal read of defined bytes (R56, R59). -/
theorem memRead_defined {s : State} {off n : Nat} (h : accessOk s off n = true) (hr : region off ≠ .regs)
    (hu : unspecified s off n = false) :
    memRead n off s = (composeLE ((List.range n).map (fun j => byteAt s (off + j))), s) := by
  simp [memRead, h, hr, hu]

/-- A legal read that R56 leaves unspecified draws a free value. -/
theorem memRead_unspecified {s : State} {off n : Nat} (h : accessOk s off n = true)
    (hu : unspecified s off n = true) : memRead n off s = drawAny n s := by
  have hr : region off ≠ .regs := by
    rcases (unspecified_iff s off n).1 hu with ⟨hr, _⟩ | ⟨hr, _⟩ <;> simp [hr]
  simp [memRead, h, hr, hu]

/-- MemRead leaves the record of reads as it is; the bus adds to it. -/
@[simp] theorem memRead_readLog (n off : Nat) (s : State) : (memRead n off s).2.readLog = s.readLog := by
  rcases memRead_state n off s with ⟨_, h⟩ | ⟨_, h | h⟩ <;> simp [h, drawAny]

/-- An offset within the window has its bus address (R50). -/
theorem busOffset_add (c : Config) {off : Nat} (h : off < 0x1000000) : busOffset c (c.base + off) = some off := by
  simp [busOffset, windowSize, h]

/-- The step of a host read within the window (R59, R84). -/
theorem step_read {s : State} {rest : List HostEvent} {n off : Nat} (hc : configWf s.cfg = true)
    (hlt : off < 0x1000000) (hp : s.pending = .read n (s.cfg.base + off) :: rest) :
    step s = .next (recordRead ⟨n, off, (memRead n off { s with pending := rest }).1⟩
      (memRead n off { s with pending := rest }).2) := by
  unfold step hostStep
  rw [hp]
  simp [hc, runEvent, busRead, busOffset_add s.cfg hlt]

/-- Every bit of STATUS (R24). -/
theorem statusWord_getLsbD (s : State) (i : Nat) : (statusWord s).getLsbD i =
    if i = 0 then s.enabled else if i = 1 then s.paused else if i = 2 then s.cfgStale
    else if i = 3 then s.auxEmpty else if i = 4 then s.auxErr else if i = 5 then s.bufsValid
    else if i = 6 then false else if i = 7 then s.fault
    else if i < 12 then s.faultCode.getLsbD (i - 8) else false := by
  unfold statusWord
  change BitVec.getLsbD (w := 20 + 4 + 1 + 1 + 1 + 1 + 1 + 1 + 1 + 1) _ i = _
  simp only [BitVec.getLsbD_append]
  by_cases h : i < 12
  · interval_cases i <;> simp
  · obtain ⟨j, rfl⟩ : ∃ j, i = j + 12 := ⟨i - 12, by omega⟩
    simp

/-- The value of one byte. -/
theorem composeLE_singleton (b : Byte) : composeLE [b] = b.toNat := by simp [composeLE]

/-- The bytes of a written value compose to its low bits (R53, R59). -/
theorem composeLE_byteOf (v : Word) {n : Nat} (hn : n = 1 ∨ n = 2 ∨ n = 4) :
    composeLE ((List.range n).map (byteOf v)) = v.toNat % 2 ^ (8 * n) := by
  have := v.isLt
  rcases hn with rfl | rfl | rfl <;>
    simp [List.range_succ, composeLE, byteOf, Nat.shiftRight_eq_div_pow] <;> omega

end Sys2Proof.Machine
end

