-- ==== Sys2Proof/Laws/PerInstr.lean ====
section
/-! SUPPORT. The per-instruction family EncodeFields: the OP and ARG fields of an encoded command
(spec/30_encoding.md R76). -/

namespace Sys2Proof.Laws.EncodeFields

open Sys2Proof

/-- The word of a command holds its opcode in OP and, where the operand fits 24 bits, its operand in ARG. -/
def Statement (i : Instr) : Prop :=
  opField (encode i) = i.opcode ∧ (i.wellFormed = true → argField (encode i) = i.operand)

/-- Both fields of a joined word. -/
theorem fields (arg : Nat) (op : Byte) :
    opField (BitVec.ofNat 24 arg ++ op) = op ∧
      (arg ≤ 16777215 → argField (BitVec.ofNat 24 arg ++ op) = arg) := by
  constructor
  · apply BitVec.eq_of_getLsbD_eq
    intro i hi
    have := BitVec.getLsbD_append (x := BitVec.ofNat 24 arg) (y := op) (i := i)
    simp only [opField, BitVec.getLsbD_extractLsb', hi, decide_true, Bool.true_and, Nat.zero_add]
    exact this.trans (by simp [hi])
  · intro h
    have : (BitVec.ofNat 24 arg ++ op : Word).extractLsb' 8 24 = BitVec.ofNat 24 arg := by
      apply BitVec.eq_of_getLsbD_eq
      intro i hi
      have := BitVec.getLsbD_append (x := BitVec.ofNat 24 arg) (y := op) (i := 8 + i)
      simp only [BitVec.getLsbD_extractLsb', hi, decide_true, Bool.true_and]
      exact this.trans (by simp)
    simp only [argField, this, BitVec.toNat_ofNat]
    exact Nat.mod_eq_of_lt (by omega)

theorem ofFields {i : Instr} (h : i.wellFormed = true → i.operand ≤ 16777215) : Statement i :=
  ⟨(fields _ _).1, fun hw => (fields _ _).2 (h hw)⟩

theorem nop : Statement .nop := ofFields (by decide)
theorem enable : Statement .enable := ofFields (by decide)
theorem disable : Statement .disable := ofFields (by decide)
theorem pause : Statement .pause := ofFields (by decide)
theorem resume : Statement .resume := ofFields (by decide)
theorem setFps (v : Nat) : Statement (.setFps v) := ofFields (by simp [Instr.wellFormed, operandFits, Instr.operand])
theorem reset : Statement .reset := ofFields (by decide)
theorem mix (n : Nat) : Statement (.mix n) := ofFields (by simp [Instr.wellFormed, operandFits, Instr.operand])
theorem push (n : Nat) : Statement (.push n) := ofFields (by simp [Instr.wellFormed, operandFits, Instr.operand])
theorem tick (n : Nat) : Statement (.tick n) := ofFields (by simp [Instr.wellFormed, operandFits, Instr.operand])
theorem auxLoad (l : Nat) : Statement (.auxLoad l) :=
  ofFields (by simp [Instr.wellFormed, operandFits, Instr.operand])
theorem auxClear : Statement .auxClear := ofFields (by decide)

end Sys2Proof.Laws.EncodeFields
end

