-- ==== Sys2Proof/Tests/Slice0.lean ====
section
/-! SUPPORT. Small tests: the well-formedness smoke, decoding of words written out from the encodings of spec/30_encoding.md
R78, one-step vectors of spec/95_test_vectors.md, and a witness for the hypotheses of every obligation that has some. -/

namespace Sys2Proof.Tests

open Sys2Proof Sys2Proof.Machine

/-! ### Helpers -/

/-- The next state, where there is one. -/
def after (o : Host.Outcome State Fault Refusal) : Option State :=
  match o with
  | .next t => some t
  | .fault _ => none
  | .refused _ => none

/-- A property of the next state; false where there is none. -/
def leaves (o : Host.Outcome State Fault Refusal) (p : State → Bool) : Bool :=
  match after o with
  | some t => p t
  | none => false

/-- An outcome that has a next state is one. -/
theorem next_of_isSome {o : Host.Outcome State Fault Refusal} (h : (after o).isSome = true) : ∃ t, o = .next t := by
  cases o with
  | next t => exact ⟨t, rfl⟩
  | fault _ => cases h
  | refused _ => cases h

/-- An int16 element from an integer. -/
def el (i : Int) : Sample := BitVec.ofInt 16 i

/-- The state with the elements `xs` from element 0 of the window at `base`. -/
def putAt (base : Nat) (xs : List Int) (s : State) : State := s.store base (bytesOf (xs.map el))

/-- Configuration T after ENABLE, the RAM not written. -/
def onT : State := { State.reset with enabled := true, bufsValid := true, wcur := 24 }

/-- `onT` paused. -/
def pausedT : State := { onT with paused := true }

/-- `onT` after SET_FPS 30. -/
def staleT : State := { onT with fps := .fps30, cfgStale := true, bufsValid := false }

/-- `onT` halted by an illegal command. -/
def haltedT : State := { onT with fault := true, faultCode := 1 }

/-- `onT` with a clip of three elements loaded and its cursor at `pos`. -/
def clipT (pos : Word) : State := { onT with auxEmpty := false, auxLen := 3, auxPos := pos }

/-- Configuration T2 after ENABLE. -/
def onT2 : State := { State.powerOn Config.testT2 with enabled := true, bufsValid := true, wcur := 8 }

/-- A configuration that is not well-formed: a ring of no bytes. -/
def badConfig : Config := { Config.testT with fragments := 0, delay := 0 }

/-- One element of a mix: clip sample `a` (none for the placeholder), PCM `p`, synth `q` (95_test_vectors.md 2.1). -/
def mixOne (mode : ClipMode) (a : Option Int) (p q : Int) : State :=
  let s := putAt pcmBase [p] (putAt synthBase [q] { onT with cfg := { Config.testT with clipMode := mode } })
  match a with
  | none => s
  | some x => putAt auxBase [x] { s with auxEmpty := false }

/-- What `MIX 1` stores there. -/
def mixesTo (mode : ClipMode) (a : Option Int) (p q r : Int) : Bool :=
  leaves (exec (.mix 1) (mixOne mode a p q)) (fun t => (mixAt t 0).toInt == r)

/-- The aux loop's start state (95_test_vectors.md 2.2), with the cursor at `pos`. -/
def loopT (pos : Word) : State :=
  putAt auxBase [10, 20, 30] (putAt pcmBase [0, 0, 0, 0] (putAt synthBase [0, 0, 0, 0] (clipT pos)))

/-- The state before push P4 of 95_test_vectors.md 2.4, the Mix Buffer already filled with 4s. -/
def beforeP4 : State :=
  putAt mixBase [4, 4, 4, 4, 4, 4, 4, 4]
    (putAt ringBase [2, 2, 2, 2, 2, 2, 2, 2, 3, 3, 3, 3, 3, 3, 3, 3, 1, 1, 1, 1] { onT with wcur := 32, rcur := 8 })

/-- The state before Program A's TICK (95_test_vectors.md 3.1). -/
def programA : State :=
  putAt pcmBase [30000, -30000, 100, -100, 32767, -32768, 0, 1]
    (putAt synthBase [5000, -5000, 200, -200, 1, -1, 0, -1] onT)

/-- The bytes of RING from `b` on. -/
def ringFrom (s : State) (b n : Nat) : List Nat := (List.range n).map (fun j => (ringAt s (b + j)).toNat)

/-- One host event run from a state. -/
def stepOn (s : State) (e : HostEvent) : Host.Outcome State Fault Refusal := step { s with pending := [e] }

/-- The values of the reads a state has recorded. -/
def reads (s : State) : List Nat := s.readLog.map (fun r => r.value)

/-! ### Well-formedness: a term each check refuses -/

theorem test_wf_refuses_long_rate : (Instr.setFps 16777216).wellFormed = false := by decide
theorem test_wf_refuses_long_mix : (Instr.mix 16777216).wellFormed = false := by decide
theorem test_wf_refuses_long_push : (Instr.push 16777216).wellFormed = false := by decide
theorem test_wf_refuses_long_tick : (Instr.tick 16777216).wellFormed = false := by decide
theorem test_wf_refuses_long_load : (Instr.auxLoad 16777216).wellFormed = false := by decide

theorem test_config_wf : configWf Config.testT = true ∧ configWf Config.testT2 = true := by decide
theorem test_config_refused :
    configWf badConfig = false ∧
    configWf { Config.testT with sampleRate := 0 } = false ∧
    configWf { Config.testT with sampleRate := 491521 } = false ∧
    configWf { Config.testT with streamMax := 15 } = false ∧
    configWf { Config.testT with auxMax := 0 } = false ∧
    configWf { Config.testT with base := 4096 } = false ∧
    configWf { Config.testT with baseBlock60 := 65536 } = false := by decide

/-! ### Decoding: words written bit by bit as ARG (24 bits) and OP (8 bits), R78 -/

theorem test_decode_nop : decode 0b00000000_00000000_00000000_00000000#32 = .command .nop := by decide
theorem test_decode_enable : decode 0b00000000_00000000_00000000_00000001#32 = .command .enable := by decide
theorem test_decode_disable : decode 0b00000000_00000000_00000000_00000010#32 = .command .disable := by decide
theorem test_decode_pause : decode 0b00000000_00000000_00000000_00000011#32 = .command .pause := by decide
theorem test_decode_resume : decode 0b00000000_00000000_00000000_00000100#32 = .command .resume := by decide
theorem test_decode_setFps : decode 0b00000000_00000000_00011110_00000101#32 = .command (.setFps 30) := by decide
theorem test_decode_reset : decode 0b00000000_00000000_00000000_00000110#32 = .command .reset := by decide
theorem test_decode_mix : decode 0b00000000_00000000_00000010_00000111#32 = .command (.mix 2) := by decide
theorem test_decode_push : decode 0b00000000_00000001_00000000_00001000#32 = .command (.push 256) := by decide
theorem test_decode_tick : decode 0b10000000_00000000_00000001_00001001#32 = .command (.tick 8388609) := by decide
theorem test_decode_auxLoad : decode 0b11111111_11111111_11111111_00001010#32 = .command (.auxLoad 16777215) := by
  decide
theorem test_decode_auxClear : decode 0b00000000_00000000_00000000_00001011#32 = .command .auxClear := by decide
theorem test_decode_refuses :
    decode 0x0000000C = .illegal (.reservedOpcode 0x0C) ∧ decode 0xFFFFFFFF = .illegal (.reservedOpcode 0xFF) ∧
    decode 0x00000100 = .illegal (.nonzeroArg 0x00 1) ∧ decode 0x80000006 = .illegal (.nonzeroArg 0x06 8388608) := by
  decide
theorem test_decode_table_word :
    decodeTableWord 32 0x0000030A = some (.auxLoad 3) ∧ decodeTableWord 32 0x0C = none := by decide

/-- The assembler's examples (R83). -/
theorem test_assembler :
    assembleLine ['T', 'I', 'C', 'K', ' ', '8'] = some 0x00000809 ∧
    assembleLine ['S', 'E', 'T', '_', 'F', 'P', 'S', ' ', '6', '0'] = some 0x00003C05 ∧
    assembleLine ['T', 'I', 'C', 'K', ' ', '0', 'x', '5', 'b', 'E'] = some 0x0005BE09 ∧
    assembleLine ['N', 'O', 'P', ' ', '0'] = none ∧ assembleLine ['M', 'I', 'X'] = none := by decide

/-- An operand that fits no word has none, and as a pseudo-instruction it is cut to 24 bits (notes/assumptions/16.md). -/
theorem test_expand_cuts_long_operand : assemble .TICK (some 16777224) = none ∧
    expand Config.testT (.command (.tick 16777224)) = .write 4 0 0x00000809 := by decide

/-! ### One step of each command -/

theorem test_nop : exec .nop onT = .next onT := rfl

/-- l2: WCUR 24, RCUR 0, STATUS 0x29. -/
theorem test_enable : leaves (exec .enable State.reset) (fun t =>
    t.wcur == 24 && t.rcur == 0 && statusWord t == 0x29) = true := by decide

/-- l3: STATUS 8, the cursors kept. -/
theorem test_disable : leaves (exec .disable onT) (fun t => t.wcur == 24 && statusWord t == 8) = true := by decide

/-- l4 and l5. -/
theorem test_pause : leaves (exec .pause onT) (fun t => statusWord t == 0x2B) = true ∧
    leaves (exec .pause State.reset) (fun t => statusWord t == 8) = true := by decide

/-- l16: the cursors restart at the new rate. -/
theorem test_resume : leaves (exec .resume { staleT with paused := true, wcur := 48, rcur := 24 }) (fun t =>
    statusWord t == 0x29 && t.wcur == 24 && t.rcur == 0) = true := by decide

/-- l7 and l9. -/
theorem test_setFps : leaves (exec (.setFps 30) onT) (fun t => statusWord t == 0x0D && fpsNat t.fps == 30) = true ∧
    leaves (exec (.setFps 120) State.reset) (fun t => statusWord t == 8 && fpsNat t.fps == 120) = true := by decide

/-- l8 and l10. -/
theorem test_setFps_same_and_bad : exec (.setFps 60) onT = .next onT ∧
    leaves (exec (.setFps 50) State.reset) (fun t => statusWord t == 0x288) = true := by
  exact ⟨rfl, by decide⟩

/-- r5 from r2's state: RING and the Mix Buffer zero, PAUSED stays. -/
theorem test_reset : leaves (exec .reset { beforeP4 with paused := true }) (fun t =>
    t.wcur == 24 && t.rcur == 0 && statusWord t == 0x2B && ringFrom t 0 40 == List.replicate 40 0 &&
      (List.range 8).all (fun k => mixAt t k == 0)) = true := by decide

/-- r3: in T2 the write cursor is the capacity. -/
theorem test_reset_T2 : leaves (exec .reset onT2) (fun t => t.wcur == 8 && t.rcur == 0) = true := by decide

/-- Rows c3, c5, c6, c9 and c12 in both clip modes. -/
theorem test_mix_clip :
    mixesTo .saturate none 32767 1 32767 ∧ mixesTo .parity none 32767 1 (-32768) ∧
    mixesTo .saturate none (-32768) (-1) (-32768) ∧ mixesTo .parity (some (-32768)) (-32768) (-32768) (-32768) ∧
    mixesTo .saturate (some 32767) 32767 32767 32767 ∧ mixesTo .parity (some 100) (-200) 50 (-50) := by decide

/-- Row a2: the aux cursor loops. The second part: a mix of RAM that nothing has written runs, on free values. -/
theorem test_mix_loop : leaves (exec (.mix 4) (loopT 1)) (fun t =>
    (List.range 4).map (fun k => (mixAt t k).toInt) == [20, 30, 10, 20] && t.auxPos == 2) = true ∧
    (after (exec (.mix 8) onT)).isSome = true := by decide

/-- Push P4: a split copy. -/
theorem test_push_split : leaves (exec (.push 8) beforeP4) (fun t =>
    t.wcur == 48 && t.rcur == 24 && ringFrom t 0 10 == [4, 0, 4, 0, 4, 0, 4, 0, 2, 0] &&
      ringFrom t 30 10 == [3, 0, 4, 0, 4, 0, 4, 0, 4, 0]) = true := by decide

/-- Push P3: the drift correction. -/
theorem test_push_drift : leaves (exec (.push 8) { beforeP4 with wcur := 56, rcur := 32 }) (fun t =>
    t.wcur == 32 && t.rcur == 8 && t.drainCount == 1 &&
      t.sink == [⟨4, List.replicate 8 4⟩]) = true := by decide

/-- Program A's TICK. -/
theorem test_tick : leaves (exec (.tick 8) programA) (fun t =>
    t.wcur == 40 && t.rcur == 16 &&
      ringFrom t 24 16 == [0xFF, 0x7F, 0, 0x80, 0x2C, 1, 0xD4, 0xFE, 0xFF, 0x7F, 0, 0x80, 0, 0, 0, 0] &&
      t.sink.map (fun e => (e.frames, e.samples.map BitVec.toInt)) ==
        [(4, [32767, -32768, 300, -300, 32767, -32768, 0, 0])]) = true := by decide

/-- p2, p3 and l13: the three faults of TICK and PUSH, by STATUS. -/
theorem test_tick_faults :
    leaves (exec (.push 9) onT) (fun t => statusWord t == 0x4A9) = true ∧
    leaves (exec (.tick 5) onT2) (fun t => statusWord t == 0x5A9 && t.sink == []) = true ∧
    leaves (exec (.tick 8) staleT) (fun t => statusWord t == 0x38D) = true := by decide

/-- a7, a8 and a9. -/
theorem test_auxLoad :
    leaves (exec (.auxLoad 0) (clipT 2)) (fun t => t.auxErr && t.auxLen == 3 && t.auxPos == 2) = true ∧
    leaves (exec (.auxLoad 9) (clipT 2)) (fun t => t.auxErr && t.auxLen == 3 && t.auxPos == 2) = true ∧
    leaves (exec (.auxLoad 8) (clipT 2)) (fun t => !t.auxErr && t.auxLen == 8 && t.auxPos == 0) = true := by decide

/-- l19. -/
theorem test_auxClear : leaves (exec .auxClear { clipT 2 with auxErr := true }) (fun t =>
    t.auxEmpty && t.auxLen == 1 && t.auxPos == 0 && !t.auxErr) = true := by decide

/-! ### One step on the bus -/

/-- b1 and b10. -/
theorem test_bus_registers :
    leaves (stepOn State.reset (.read 4 4)) (fun t => reads t == [8]) = true ∧
    leaves (stepOn onT (.read 4 0)) (fun t => reads t == [0]) = true := by decide

/-- b2, b3, b4, b7, b14 and b15 raise BUS_ERROR. -/
theorem test_bus_errors : [HostEvent.read 2 4, .read 4 2, .read 4 0x2C, .read 1 0x10020, .read 1 0x40028,
    .read 4 0x80000, .write 2 0x10001 1, .read 3 0x10000].all (fun e =>
      leaves (stepOn State.reset e) (fun t => statusWord t == 0x688)) = true := by decide

/-- b5 and b6. -/
theorem test_bus_bytes :
    leaves (stepOn (putAt pcmBase [0, 0x1234] onT) (.read 4 0x10000)) (fun t => reads t == [0x12340000]) = true ∧
    leaves (stepOn (putAt pcmBase [0, 0x1234] onT) (.read 1 0x10003)) (fun t => reads t == [0x12]) = true ∧
    leaves (stepOn onT (.write 4 0x10000 0xFFFF8000)) (fun t =>
      (pcmAt t 0).toInt == -32768 && (pcmAt t 1).toInt == -1) = true := by decide

/-- b9 and b12: writes to a read-only register and window are ignored. -/
theorem test_bus_read_only :
    after (stepOn onT (.write 4 0x18 5)) = some onT ∧ after (stepOn onT (.write 1 0x40000 9)) = some onT := by decide

/-- b13: no fault, and one free value drawn. -/
theorem test_bus_any : leaves (stepOn State.reset (.read 2 0x30000)) (fun t => !t.fault && t.anyCount == 1) = true := by
  decide

/-- l11 and l14: an illegal word, and a command to a halted block. -/
theorem test_bus_commands :
    leaves (stepOn State.reset (.write 4 0 0x0C)) (fun t => statusWord t == 0x188) = true ∧
    after (stepOn haltedT (.write 4 0 1)) = some haltedT := by decide

/-- The word placed by withFetchWord is the command that the very next step runs. -/
theorem test_fetch_word :
    leaves (step (State.reset.withFetchWord 32 1)) (fun t => statusWord t == 0x29 && t.pending == []) = true ∧
    leaves (step (State.reset.withFetchWord 32 0x80A)) (fun t => t.auxLen == 8) = true := by decide

/-! ### Witnesses: for each obligation with hypotheses, concrete values that meet them, clause by clause and at the
boundary values of each range -/

theorem witness_DecodeOfEncodeIsIdentity :
    (Instr.tick 16777215).wellFormed = true ∧ (Instr.setFps 0).wellFormed = true ∧ Instr.auxClear.wellFormed = true := by
  decide

theorem witness_EncodeOfDecodeIsIdentity :
    decode 0xFFFFFF0A = .command (.auxLoad 16777215) ∧ decode 0 = .command .nop := by decide

theorem witness_ReservedOpcodeRaisesIllegalCmd :
    onT.fault = false ∧ 12 ≤ (0x0000000C : Word).toNat % 256 ∧ 12 ≤ (0xFFFFFFFF : Word).toNat % 256 := by decide

theorem witness_NonzeroArgRaisesIllegalCmd :
    onT.fault = false ∧ (0x00000100 : Word).toNat % 256 ∈ [0, 1, 2, 3, 4, 6, 11] ∧ (0x00000100 : Word).toNat / 256 ≠ 0 ∧
    (0xFFFFFF0B : Word).toNat % 256 ∈ [0, 1, 2, 3, 4, 6, 11] ∧ (0xFFFFFF0B : Word).toNat / 256 ≠ 0 := by decide

theorem witness_AssembledWordIsTheCommand :
    assemble .TICK (some 16777215) = some 0xFFFFFF09 ∧ assemble .AUX_CLEAR none = some 0x0000000B ∧
    16777215 < 16777216 ∧ Mnemonic.AUX_CLEAR ∈ [Mnemonic.NOP, .ENABLE, .DISABLE, .PAUSE, .RESUME, .RESET, .AUX_CLEAR] := by
  decide

/-- The written word and the pseudo-instruction, the greatest operand included. -/
theorem witness_StepRunsTheDecodedCommand :
    let s := { onT with pending := [.write 4 onT.cfg.base 0x00000809, .read 4 4] }
    let p := { onT with pending := [expand onT.cfg (.command (.tick 16777215))] }
    configWf s.cfg = true ∧ s.fault = false ∧ s.pending = .write 4 s.cfg.base 0x00000809 :: [.read 4 4] ∧
      decode 0x00000809 = .command (.tick 8) ∧ (Instr.tick 16777215).wellFormed = true ∧
      p.pending = expand p.cfg (.command (.tick 16777215)) :: [] := by decide

/-- The addresses at both ends of the window, and an ill-formed configuration. -/
theorem witness_StepStopsOnlyOutsideTheSpec :
    configWf onT.cfg = true ∧ onT.cfg.base ≤ 0 ∧ 16777215 < onT.cfg.base + 16777216 ∧
    configWf (State.powerOn badConfig).cfg = false := by decide

theorem witness_ConfigurationIsFixed : ∃ t, step { onT with pending := [.write 4 0 0x00000809] } = .next t := ⟨_, rfl⟩

/-- A halted block with a read, a command, a write to a read-only window, an illegal write, and legal writes of the first
and the last byte of the input windows to come. -/
theorem witness_HaltedBlockKeepsItsState :
    haltedT.fault = true ∧ (∃ t, step { haltedT with pending := [.read 4 4] } = .next t) ∧
    (∃ t, step { haltedT with pending := [.write 4 (haltedT.cfg.base + 0) 1] } = .next t) ∧
    (∃ t, step { haltedT with pending := [.write 1 (haltedT.cfg.base + 0x030000) 1] } = .next t) ∧
    (accessOk haltedT 0x01001F 2 = false ∧
      ∃ t, step { haltedT with pending := [.write 2 (haltedT.cfg.base + 0x01001F) 1] } = .next t) ∧
    (accessOk haltedT 0x010000 1 = true ∧
      ∃ t, step { haltedT with pending := [.write 1 (haltedT.cfg.base + 0x010000) 7] } = .next t) ∧
    (accessOk haltedT 0x02001F 1 = true ∧
      ∃ t, step { haltedT with pending := [.write 1 (haltedT.cfg.base + 0x02001F) 7] } = .next t) ∧
    (accessOk haltedT 0x800000 2 = true ∧
      ∃ t, step { haltedT with pending := [.write 2 (haltedT.cfg.base + 0x800000) 7] } = .next t) :=
  ⟨rfl, next_of_isSome (by decide), next_of_isSome (by decide), next_of_isSome (by decide),
    ⟨by decide, next_of_isSome (by decide)⟩, ⟨by decide, next_of_isSome (by decide)⟩,
    ⟨by decide, next_of_isSome (by decide)⟩, ⟨by decide, next_of_isSome (by decide)⟩⟩

theorem witness_PowerOnResetEventClearsTheBlock :
    let s := { haltedT with pending := [.powerOnReset, .read 4 4] }
    configWf s.cfg = true ∧ s.pending = .powerOnReset :: [.read 4 4] ∧ 0 < s.cfg.streamMax ∧ 15 < s.cfg.streamMax := by
  decide

theorem witness_InvariantHoldsAtReset : configWf Config.testT2 = true := by decide

/-- The invariant of an enabled block, with the ring's cursors at and after their start. -/
theorem inv_onT : Inv onT := by
  constructor <;> decide

theorem inv_staleT : Inv staleT := by
  constructor <;> decide

theorem inv_pausedT : Inv pausedT := by
  constructor <;> decide

theorem inv_clipT : Inv (clipT 2) := by
  constructor <;> decide

/-- Both ends of the read cursor's range (R33). -/
theorem inv_full_ring : Inv { onT with rcur := 40, wcur := 64 } := by
  constructor <;> decide

theorem witness_EveryStepKeepsTheInvariant :
    Inv { onT with pending := [.write 4 0 0x00000809] } ∧
    ∃ t, step { onT with pending := [.write 4 0 0x00000809] } = .next t :=
  ⟨by constructor <;> decide, _, rfl⟩

theorem witness_NopChangesNothing :
    onT.fault = false ∧ (0x00000100 : Word).toNat % 256 = 0 ∧ (0x00000100 : Word).toNat / 256 ≠ 0 ∧
    haltedT.fault = true := by decide

/-- For EnableRestartsFromACleanRing, ResumeRestartsTheRing and ResetClearsTheRing: enabled, paused, stale, disabled. -/
theorem witness_restarts :
    configWf onT.cfg = true ∧ onT.enabled = true ∧ configWf pausedT.cfg = true ∧ pausedT.enabled = true ∧
    configWf staleT.cfg = true ∧ staleT.enabled = true ∧ configWf onT2.cfg = true ∧ onT2.enabled = true ∧
    configWf State.reset.cfg = true ∧ State.reset.enabled = false := by decide

theorem witness_PauseKeepsTheBuffers : onT.enabled = true ∧ State.reset.enabled = false := by decide

/-- The four clauses: a bad rate (the least, and one between legal rates), the current rate, a new one enabled and not. -/
theorem witness_SetFpsChangesTheRate :
    (0 ≠ 30 ∧ 0 ≠ 60 ∧ 0 ≠ 120) ∧ (59 ≠ 30 ∧ 59 ≠ 60 ∧ 59 ≠ 120) ∧ 60 = fpsNat onT.fps ∧
    (30 = fpsNat .fps30 ∧ .fps30 ≠ onT.fps ∧ onT.enabled = true) ∧
    (120 = fpsNat .fps120 ∧ .fps120 ≠ State.reset.fps ∧ State.reset.enabled = false) := by decide

theorem witness_OnlySetFpsChangesTheRate :
    (∀ v, Instr.enable ≠ .setFps v) ∧ ∃ t, exec .enable State.reset = .next t := ⟨by intro v; simp, _, rfl⟩

theorem witness_RateChangeNeedsAReset :
    configWf onT.cfg = true ∧ onT.enabled = true ∧ .fps30 ≠ onT.fps ∧ .fps120 ≠ onT.fps ∧ onT.paused = false := by decide

/-- For TickIsMixThenPush, TickDeliversTheMixedBlock and PushCopiesAndDelivers, at both ends of N (inv_onT gives the
invariant); in T2 the capacity is the narrower bound. -/
theorem witness_deliveries :
    active onT = true ∧ onT.cfgStale = false ∧ 0 ≤ mixLen onT.cfg onT.fps ∧ 8 ≤ mixLen onT.cfg onT.fps ∧
    2 * 8 ≤ cap onT.cfg onT.fps ∧ active onT2 = true ∧ onT2.cfgStale = false ∧ 4 ≤ mixLen onT2.cfg onT2.fps ∧
    2 * 4 ≤ cap onT2.cfg onT2.fps := by decide

/-- R41: one element below N and one at or above it. -/
theorem witness_TickDeliversTheMixedBlock :
    0 < 3 ∧ 2 < 3 ∧ 3 < 2 * frames onT.cfg onT.fps ∧ 7 < 2 * frames onT.cfg onT.fps := by decide

theorem witness_InactiveBlockDoesNothing :
    State.reset.enabled = false ∧ pausedT.paused = true := by decide

/-- Stale; one element too long; one element more than the ring holds. -/
theorem witness_AudioFaultsInOrder :
    (staleT.enabled = true ∧ staleT.paused = false ∧ staleT.cfgStale = true) ∧
    (onT.enabled = true ∧ onT.paused = false ∧ onT.cfgStale = false ∧ mixLen onT.cfg onT.fps < 9) ∧
    (onT2.enabled = true ∧ onT2.paused = false ∧ onT2.cfgStale = false ∧ 5 ≤ mixLen onT2.cfg onT2.fps ∧
      cap onT2.cfg onT2.fps < 2 * 5) := by decide

theorem witness_FirstFaultIsKept : onT.fault = false ∧ haltedT.fault = true := by decide

/-- A delivery; another command; a push of an inactive block; a push that raises a fault. -/
theorem witness_OneEventPerDelivery :
    onT.fault = false ∧ active onT = true ∧ leaves (exec (.tick 8) onT) (fun t => !t.fault) = true ∧
    leaves (exec (.mix 8) onT) (fun t => !t.fault) = true ∧ pausedT.fault = false ∧ active pausedT = false ∧
    leaves (exec (.push 8) pausedT) (fun t => !t.fault) = true ∧
    leaves (exec (.push 9) onT) (fun t => t.fault) = true := by decide

theorem witness_SinkIsAppendOnly :
    let s := { onT with pending := [.write 4 0 0x00000809] }
    (∀ rest, s.pending ≠ .powerOnReset :: rest) ∧ ∃ t, step s = .next t := ⟨by intro rest; simp, _, rfl⟩

/-- ENABLE leaves the disabled state; RESUME makes a paused block active. -/
theorem witness_IdleStatesAreLeftByTheirCommands :
    State.reset.enabled = false ∧ leaves (exec .enable State.reset) (fun t => t.enabled) = true ∧
    pausedT.enabled = true ∧ pausedT.paused = true ∧ leaves (exec .resume pausedT) active = true := by decide

/-- At both ends of N and of the cursor. -/
theorem witness_MixStoresTheClippedSums :
    active (clipT 0) = true ∧ (clipT 0).cfgStale = false ∧ 0 ≤ mixLen (clipT 0).cfg (clipT 0).fps ∧
    8 ≤ mixLen (clipT 0).cfg (clipT 0).fps ∧ (clipT 0).auxPos.toNat < (clipT 0).auxLen.toNat ∧
    active (clipT 2) = true ∧ (clipT 2).cfgStale = false ∧ (clipT 2).auxPos.toNat < (clipT 2).auxLen.toNat := by decide

theorem witness_PlaceholderIsSilent :
    Inv onT ∧ onT.auxEmpty = true ∧ active onT = true ∧ onT.cfgStale = false ∧ 8 ≤ mixLen onT.cfg onT.fps :=
  ⟨inv_onT, by decide⟩

/-- A clip cursor at 1 and, in another state, the same clip at 1: element 2 of two mixes of different lengths. -/
theorem witness_MixIsElementwise :
    let s₁ := loopT 1
    let s₂ := { loopT 1 with enabled := true, drainCount := 9 }
    2 < 3 ∧ 2 < 8 ∧ active s₁ = true ∧ active s₂ = true ∧ s₁.auxPos.toNat < s₁.auxLen.toNat ∧
      s₂.auxPos.toNat < s₂.auxLen.toNat ∧ s₁.cfg.clipMode = s₂.cfg.clipMode ∧ pcmAt s₁ 2 = pcmAt s₂ 2 ∧
      synthAt s₁ 2 = synthAt s₂ 2 ∧
      auxTerm s₁ ((s₁.auxPos.toNat + 2) % s₁.auxLen.toNat) = auxTerm s₂ ((s₂.auxPos.toNat + 2) % s₂.auxLen.toNat) ∧
      leaves (exec (.mix 3) s₁) (fun t => !t.fault) = true ∧ leaves (exec (.mix 8) s₂) (fun t => !t.fault) = true := by
  decide

/-- A run whose elements are as many as the clip has, and the empty run. -/
theorem witness_AuxCursorLoopsAcrossMixes :
    active (clipT 2) = true ∧ (clipT 2).cfgStale = false ∧ (clipT 2).auxPos.toNat < (clipT 2).auxLen.toNat ∧
    (∀ n ∈ [1, 2], n ≤ mixLen (clipT 2).cfg (clipT 2).fps) ∧ [1, 2].sum = (clipT 2).auxLen.toNat := by decide

/-- For CursorsHaveAClosedForm and RingContentLaw: pushes of several capacities, mixed with MIX and an empty PUSH. -/
theorem witness_runs :
    Inv onT ∧ active onT = true ∧
    ∀ i ∈ [Instr.tick 8, .push 0, .mix 3, .tick 8, .push 8, .tick 5], audioFits onT i :=
  ⟨inv_onT, by decide, by simp [audioFits]; decide⟩

/-- L at 0, above, at 1 and at P_AUX_MAX. -/
theorem witness_AuxLoadCommitsALength :
    configWf onT.cfg = true ∧ (0 = 0 ∨ onT.cfg.auxMax < 0) ∧ onT.cfg.auxMax < 9 ∧ 1 ≤ onT.cfg.auxMax ∧
    8 ≤ onT.cfg.auxMax := by decide

theorem witness_AuxClearRestoresTheSilentClip :
    active (clipT 2) = true ∧ (clipT 2).cfgStale = false ∧ 8 ≤ mixLen (clipT 2).cfg (clipT 2).fps := by decide

theorem witness_ClipIsIndependentOfTheLifecycle :
    (∀ l, Instr.disable ≠ .auxLoad l) ∧ Instr.disable ≠ .auxClear ∧ (∀ n, Instr.disable ≠ .mix n) ∧
    (∀ n, Instr.disable ≠ .tick n) ∧ ∃ t, exec .disable (clipT 2) = .next t :=
  ⟨by intro l; simp, by simp, by intro n; simp, by intro n; simp, _, rfl⟩

/-- The first and the last legal access of every window of T. -/
theorem witness_LegalAccessesAreTheWindows :
    configWf onT.cfg = true ∧ accessOk onT 0 4 = true ∧ accessOk onT 0x028 4 = true ∧
    accessOk onT 0x010000 1 = true ∧ accessOk onT 0x01001F 1 = true ∧ accessOk onT 0x02001C 4 = true ∧
    accessOk onT 0x03001E 2 = true ∧ accessOk onT 0x040024 4 = true ∧ accessOk onT 0x80000E 2 = true := by decide

theorem witness_BusErrorHasNoOtherEffect :
    accessOk onT 0 2 = false ∧ accessOk onT 0x02C 4 = false ∧ accessOk onT 0x010020 1 = false ∧
    accessOk onT 0x040028 1 = false ∧ accessOk onT 0x800010 2 = false ∧ accessOk onT 0x080000 4 = false ∧
    accessOk onT 0x010001 2 = false ∧ accessOk onT 0x010000 3 = false := by decide

theorem witness_DataWriteThenRead :
    accessOk haltedT 0x01001F 1 = true ∧ region 0x01001F = .pcmIn ∧ accessOk onT 0x02001C 4 = true ∧
    region 0x02001C = .synthIn ∧ accessOk onT 0x80000E 2 = true ∧ region 0x80000E = .auxRam := by decide

theorem witness_ReadOnlyWindowsIgnoreWrites :
    (accessOk onT 0x018 4 = true ∧ region 0x018 = .regs ∧ 0x018 ≠ 0) ∧
    (accessOk onT 0x030000 2 = true ∧ region 0x030000 = .mixbuf) ∧
    (accessOk onT 0x040027 1 = true ∧ region 0x040027 = .ring) := by decide

/-- Legal reads of each clause: outside the buffers, the last live element of MIXBUF, the last byte of RING, both buffers
while undefined, and the first element above the live length. -/
theorem witness_ReadsHaveNoSideEffects :
    (accessOk onT 0x028 4 = true ∧ accessOk onT 0x02001C 4 = true ∧ accessOk onT 0x800000 2 = true) ∧
    (accessOk onT 0x03000E 2 = true ∧ onT.bufsValid = true ∧ 0x03000E + 2 ≤ 0x030000 + 2 * mixLen onT.cfg onT.fps) ∧
    accessOk onT 0x040027 1 = true ∧
    (accessOk State.reset 0x030000 2 = true ∧ State.reset.bufsValid = false ∧ accessOk State.reset 0x040027 1 = true) ∧
    (accessOk onT 0x030010 2 = true ∧ 0x030000 + 2 * mixLen onT.cfg onT.fps ≤ 0x030010 ∧
      accessOk onT 0x03001E 2 = true) := by
  decide

/-- The last live elements of MIXBUF and of AUX_RAM, and the last bytes of RING. -/
theorem witness_MixedWidthReads :
    (mixBase ∈ [pcmBase, synthBase, mixBase, auxBase] ∧ accessOk onT (mixBase + 2 * 6) 4 = true ∧
      onT.bufsValid = true ∧ 6 + 2 ≤ mixLen onT.cfg onT.fps) ∧
    (accessOk onT (mixBase + 2 * 7 + 1) 1 = true ∧ 7 + 1 ≤ mixLen onT.cfg onT.fps) ∧
    (accessOk onT (auxBase + 2 * 6) 4 = true ∧ auxBase ≠ mixBase) ∧ accessOk onT (ringBase + 36) 4 = true := by decide

theorem witness_RegistersReadTheirValues : configWf staleT.cfg = true ∧ configWf onT2.cfg = true := by decide

/-- The last element of each input window. -/
theorem witness_SamplePseudosStoreTheElement :
    configWf onT.cfg = true ∧
    ({ onT with pending := [expand onT.cfg (.pcm 15 7)] } : State).pending = expand onT.cfg (.pcm 15 7) :: [] ∧
    15 < onT.cfg.streamMax ∧
    ({ onT with pending := [expand onT.cfg (.syn 15 7)] } : State).pending = expand onT.cfg (.syn 15 7) :: [] ∧
    ({ onT with pending := [expand onT.cfg (.aux 7 7)] } : State).pending = expand onT.cfg (.aux 7 7) :: [] ∧
    7 < onT.cfg.auxMax := by decide

/-- The last element and the last byte that R56 defines, and the ends of the window. -/
theorem witness_ReadStepsRecordWhatIsRead :
    configWf onT.cfg = true ∧ 0 < 0x1000000 ∧ 0xFFFFFF < 0x1000000 ∧ onT.bufsValid = true ∧
    7 < mixLen onT.cfg onT.fps ∧ 39 < cap onT.cfg onT.fps ∧
    ({ onT with pending := [expand onT.cfg (.rmix 7)] } : State).pending = expand onT.cfg (.rmix 7) :: [] := by decide

end Sys2Proof.Tests
end

/-! ### The scope of a step (spec/00_scope.md R7, R11, R19; spec/20_memory.md R50) -/

namespace Sys2Proof.Machine

open Sys2Proof

/-! ### Totality: every command and every access inside the window answers a next state -/

/-- The hardware's faults are state (R146), so no command stops the model. -/
theorem exec_answers_next (i : Instr) (s : State) : ∃ t, exec i s = .next t := by
  cases i with
  | nop => exact ⟨_, rfl⟩
  | enable => exact ⟨_, rfl⟩
  | disable => exact ⟨_, rfl⟩
  | pause =>
    change ∃ t, execPause s = .next t
    unfold execPause
    split <;> exact ⟨_, rfl⟩
  | resume =>
    change ∃ t, execResume s = .next t
    unfold execResume
    split <;> exact ⟨_, rfl⟩
  | reset =>
    change ∃ t, execReset s = .next t
    unfold execReset
    split <;> exact ⟨_, rfl⟩
  | setFps v =>
    obtain ⟨_, h⟩ | ⟨_, h⟩ | ⟨_, _, _, _, h⟩ | ⟨_, _, _, _, h⟩ := execSetFps_cases v s <;> exact ⟨_, h⟩
  | mix n =>
    obtain ⟨_, h⟩ | ⟨_, _, h⟩ | ⟨_, _, _, h⟩ | ⟨_, _, _, h⟩ := execMix_cases n s <;> exact ⟨_, h⟩
  | push n =>
    obtain ⟨_, h⟩ | ⟨_, _, h⟩ | ⟨_, _, _, h⟩ | ⟨_, _, _, _, h⟩ | ⟨_, _, _, _, h⟩ := execPush_cases n s <;>
      exact ⟨_, h⟩
  | tick n =>
    obtain ⟨_, h⟩ | ⟨_, _, h⟩ | ⟨_, _, _, h⟩ | ⟨_, _, _, _, h⟩ | ⟨_, _, _, _, h⟩ := execTick_cases n s <;>
      exact ⟨_, h⟩
  | auxLoad l =>
    obtain ⟨_, h⟩ | ⟨_, _, h⟩ := execAuxLoad_cases l s <;> exact ⟨_, h⟩
  | auxClear => exact ⟨_, rfl⟩

theorem execute_answers_next (w : Word) (s : State) : ∃ t, execute w s = .next t := by
  obtain ⟨_, h⟩ | ⟨_, i, _, h⟩ | ⟨_, _, _, h⟩ := execute_cases w s
  · exact ⟨_, h⟩
  · rw [h]; exact exec_answers_next i s
  · exact ⟨_, h⟩

theorem memWrite_answers_next (n off : Nat) (v : Word) (s : State) : ∃ t, memWrite n off v s = .next t := by
  obtain ⟨_, h⟩ | ⟨_, _, _, h⟩ | ⟨_, _, h⟩ | ⟨_, _, h⟩ | ⟨_, h⟩ := memWrite_cases n off v s
  · exact ⟨_, h⟩
  · rw [h]; exact execute_answers_next v s
  · exact ⟨_, h⟩
  · exact ⟨_, h⟩
  · exact ⟨_, h⟩

/-- The bus addresses of the block's window have a block offset (R50). -/
theorem busOffset_of_inWindow {c : Config} {addr : Nat} (h : c.base ≤ addr ∧ addr < c.base + 16777216) :
    busOffset c addr = some (addr - c.base) := by
  unfold busOffset windowSize
  exact if_pos h

theorem busRead_answers_next {n addr : Nat} {s : State} (h : s.cfg.base ≤ addr ∧ addr < s.cfg.base + 16777216) :
    ∃ t, busRead n addr s = .next t := by
  simp [busRead, busOffset_of_inWindow h]

theorem busWrite_answers_next {n addr : Nat} {v : Word} {s : State}
    (h : s.cfg.base ≤ addr ∧ addr < s.cfg.base + 16777216) : ∃ t, busWrite n addr v s = .next t := by
  simpa [busWrite, busOffset_of_inWindow h] using memWrite_answers_next n (addr - s.cfg.base) v s

/-! ### The three forms of a step -/

/-- R11: an ill-formed configuration is refused. -/
theorem step_of_illFormedConfig {s : State} (h : configWf s.cfg = false) : step s = .refused .illFormedConfig := by
  simp [step, hostStep, h]

/-- R19, R167: the block takes no step of its own. -/
theorem step_of_nothing_pending {s : State} (h : configWf s.cfg = true) (hp : s.pending = []) : step s = .next s := by
  simp [step, hostStep, h, hp]

/-- R65: the step is the next event, on the state that has taken it off the list. -/
theorem step_of_pending {s : State} {e : HostEvent} {rest : List HostEvent} (h : configWf s.cfg = true)
    (hp : s.pending = e :: rest) : step s = runEvent e { s with pending := rest } := by
  simp [step, hostStep, h, hp]

/-- Settles O9: the step by the list of events, then by the event. -/
theorem stepStopsOnlyOutsideTheSpec : Obligations.StepStopsOnlyOutsideTheSpec := by
  unfold Obligations.StepStopsOnlyOutsideTheSpec
  refine ⟨fun s hc hread hwrite => ?_, fun s => step_of_illFormedConfig⟩
  cases hp : s.pending with
  | nil => exact ⟨s, step_of_nothing_pending hc hp, fun _ => rfl⟩
  | cons e rest =>
    have hnext : ∃ t, runEvent e { s with pending := rest } = .next t := by
      cases e with
      | read n addr => exact busRead_answers_next (hread n addr rest hp)
      | write n addr v => exact busWrite_answers_next (hwrite n addr v rest hp)
      | powerOnReset => exact ⟨_, rfl⟩
    obtain ⟨t, ht⟩ := hnext
    exact ⟨t, (step_of_pending hc hp).trans ht, by simp⟩

/-! ### The configuration is no command's and no event's to change (R7) -/

theorem exec_cfg {i : Instr} {s t : State} (h : exec i s = .next t) : t.cfg = s.cfg := by
  obtain rfl | ⟨_, rfl⟩ | ⟨_, rfl⟩ | ⟨_, rfl⟩ | ⟨_, _, rfl⟩ | ⟨_, _, rfl⟩ | ⟨_, _, rfl⟩ | ⟨_, _, _, _, rfl⟩ |
    ⟨_, _, _, _, rfl⟩ | ⟨_, _, _, _, _, rfl⟩ | ⟨_, _, _, _, _, _, rfl⟩ | ⟨_, _, _, _, _, _, rfl⟩ | ⟨_, _, _, rfl⟩ |
    ⟨_, _, _, _, rfl⟩ | ⟨_, rfl⟩ := exec_cases h <;> simp

/-- Settles O10: each effect of a step, and `exec_cfg` for the commands. -/
theorem configurationIsFixed : Obligations.ConfigurationIsFixed := by
  unfold Obligations.ConfigurationIsFixed
  intro s t h
  obtain ⟨_, ⟨_, rfl⟩ | ⟨e, rest, u, _, hu, heffect⟩⟩ := step_effect h
  · rfl
  · have hcfg : u.cfg = s.cfg := by rw [hu]
    suffices t.cfg = u.cfg from this.trans hcfg
    obtain ⟨r, rfl | rfl | rfl⟩ | rfl | ⟨c, rfl⟩ | ⟨i, _, hexec⟩ | ⟨off, bs, _, _, rfl⟩ | ⟨_, rfl⟩ := heffect
    · exact recordRead_cfg r u
    · simp
    · simp
    · rfl
    · exact raiseFault_cfg c u
    · exact exec_cfg hexec
    · exact store_cfg u off bs
    · exact powerOnReset_cfg u

end Sys2Proof.Machine

/-! ### The invariant of a reachable state (spec/10_state.md R44) -/

namespace Sys2Proof.Machine

open Sys2Proof

/-! ### Operations that touch no field the invariant speaks of, or one of them -/

/-- The events to come, the record of reads and the free values are outside the block. -/
theorem Inv.of_model_fields {s : State} (h : Inv s) (epoch anyCount : Nat) (readLog : List ReadResult)
    (pending : List HostEvent) :
    Inv { s with epoch := epoch, anyCount := anyCount, readLog := readLog, pending := pending } :=
  { h with }

theorem inv_recordRead {s : State} (h : Inv s) (r : ReadResult) : Inv (recordRead r s) :=
  h.of_model_fields ..

theorem inv_drawAny {s : State} (h : Inv s) (n : Nat) : Inv (drawAny n s).2 :=
  h.of_model_fields ..

theorem inv_store {s : State} (h : Inv s) (a : Nat) (bs : List Byte) : Inv (s.store a bs) :=
  { h with memory := Memory.wf_writeBytes a bs h.memory }

/-- Every code that is produced is one of 1 to 6 (R145). -/
theorem faultNumber_bounds (c : FaultCode) : 1 ≤ (faultNumber c).toNat ∧ (faultNumber c).toNat ≤ 6 := by
  cases c <;> decide

theorem inv_raiseFault {s : State} (h : Inv s) (c : FaultCode) : Inv (raiseFault c s) := by
  cases hf : s.fault with
  | true => rwa [raiseFault_of_fault c hf]
  | false =>
    rw [raiseFault_of_no_fault c hf]
    exact { h with noFaultCode := nofun, faultCodes := fun _ => faultNumber_bounds c }

/-! ### Power-on reset -/

theorem inv_powerOn {c : Config} (hc : configWf c = true) : Inv (State.powerOn c) where
  config := hc
  memory := reset_mem_wf
  auxLength := ⟨le_rfl, auxMax_pos hc⟩
  auxCursor := Nat.zero_lt_one
  placeholder _ := ⟨rfl, rfl⟩
  cursors := nofun
  stale := nofun
  validEnabled := nofun
  enabledValid := nofun
  pausedEnabled := nofun
  noFaultCode _ := rfl
  faultCodes := nofun
  drained := rfl
  blocks := nofun

theorem inv_powerOnReset {s : State} (h : Inv s) : Inv (powerOnReset s) :=
  (inv_powerOn h.config).of_model_fields ..

/-- Settles O14: the table of R45, item by item. -/
theorem invariantHoldsAtReset : Obligations.InvariantHoldsAtReset := by
  unfold Obligations.InvariantHoldsAtReset
  exact ⟨fun _ => inv_powerOn, inv_powerOn (by decide)⟩

/-! ### The bodies of the commands -/

/-- RESET's body meets the invariant wherever the block is enabled: it places the cursors whatever they were (R100). -/
theorem inv_ringReset {s : State} (h : Inv s) {enabled : Bool} (he : enabled = true) (paused : Bool) :
    Inv (ringReset { s with enabled := enabled, paused := paused }) :=
  { h with
    memory := wf_ringReset h.memory
    cursors := fun _ _ => by
      have hle := offset_le_cap h.config s.fps
      have hcap := cap_le h.config s.fps
      have hwcur : (BitVec.ofNat 32 (offset s.cfg s.fps)).toNat = offset s.cfg s.fps := Nat.mod_eq_of_lt (by omega)
      exact ⟨hwcur.trans (Nat.zero_add _).symm, Nat.zero_le _⟩
    stale := nofun
    validEnabled := fun _ => he
    enabledValid := fun _ _ => rfl
    pausedEnabled := fun _ => he }

/-- A rate change owes a RESET while enabled; while disabled the buffers are not valid, so no cursor is bound to the new
rate (R135). -/
theorem inv_setFps_enabled {s : State} (h : Inv s) (he : s.enabled = true) (f : Fps) :
    Inv { s with fps := f, cfgStale := true, bufsValid := false } :=
  { h with
    cursors := nofun
    stale := fun _ => ⟨he, rfl⟩
    validEnabled := nofun
    enabledValid := nofun }

theorem bufsValid_of_disabled {s : State} (h : Inv s) (he : s.enabled = false) : s.bufsValid = false :=
  Bool.eq_false_iff.2 fun hv => by simp [h.validEnabled hv] at he

theorem inv_setFps_disabled {s : State} (h : Inv s) (he : s.enabled = false) (f : Fps) : Inv { s with fps := f } :=
  { h with cursors := fun hv => by simp [bufsValid_of_disabled h he] at hv }

theorem inv_disable {s : State} (h : Inv s) :
    Inv { s with enabled := false, paused := false, cfgStale := false, bufsValid := false } :=
  { h with
    cursors := nofun
    stale := nofun
    validEnabled := nofun
    enabledValid := nofun
    pausedEnabled := nofun }

theorem inv_pause {s : State} (h : Inv s) (he : s.enabled = true) : Inv { s with paused := true } :=
  { h with pausedEnabled := fun _ => he }

/-- The aux cursor stays inside the clip, and at 0 for the placeholder, whose length is 1 (R93, R119). -/
theorem inv_mixBody {s : State} (h : Inv s) (n : Nat) : Inv (mixBody n s) := by
  have hpos := auxPos_mixBody n s h.auxCursor
  exact { h with
    memory := Memory.wf_writeBytes _ _ h.memory
    auxCursor := hpos ▸ Nat.mod_lt _ h.auxLength.1
    placeholder := fun hempty => by
      have hlen := (h.placeholder hempty).1
      refine ⟨hlen, BitVec.eq_of_toNat_eq ?_⟩
      rw [hpos, hlen]
      exact Nat.mod_one _ }

/-- R44 item 3 applies to an active block that owes no RESET. -/
theorem cursors_of_active {s : State} (h : Inv s) (ha : active s = true) (hs : s.cfgStale = false) :
    s.wcur.toNat = s.rcur.toNat + offset s.cfg s.fps ∧ s.rcur.toNat ≤ cap s.cfg s.fps :=
  h.cursors (h.enabledValid ((active_iff s).1 ha).1 hs) hs

/-- The copy and the drift correction keep the cursors' distance and the read cursor's range (R108, R109). -/
theorem inv_advanceRing {s : State} (h : Inv s) (ha : active s = true) (hs : s.cfgStale = false) {bw : Nat}
    (hbw : bw ≤ cap s.cfg s.fps) : Inv (advanceRing bw s) := by
  obtain ⟨hw, hr⟩ := cursors_of_active h ha hs
  obtain ⟨hr', hw'⟩ := advanceRing_cursors h.config hbw hr hw
  exact { h with
    memory := wf_ringCopy _ _ _ h.memory
    cursors := fun _ _ => ⟨hw', by rw [hr']; simp only [advanceRing_cfg, advanceRing_fps]; split <;> omega⟩ }

/-- A delivery is one more event, of two samples a frame, and is counted (R36, R105). -/
theorem inv_deliver {s : State} (h : Inv s) : Inv (deliver s) :=
  { h with
    drained := by simp [h.drained, BitVec.ofNat_add]
    blocks := fun e he => by
      rw [deliver_sink, List.mem_append, List.mem_singleton] at he
      obtain he | rfl := he
      · exact h.blocks e he
      · simp }

theorem inv_pushBody {s : State} (h : Inv s) (ha : active s = true) (hs : s.cfgStale = false) {n : Nat}
    (hn : 2 * n ≤ cap s.cfg s.fps) : Inv (pushBody n s) :=
  inv_deliver (inv_advanceRing h ha hs hn)

theorem inv_auxLoad {s : State} (h : Inv s) {l : Nat} (hl : 1 ≤ l) (hmax : l ≤ s.cfg.auxMax) :
    Inv { s with auxLen := BitVec.ofNat 32 l, auxPos := 0, auxEmpty := false, auxErr := false } := by
  have hle := auxMax_le h.config
  have hlen : (BitVec.ofNat 32 l).toNat = l := Nat.mod_eq_of_lt (by omega)
  exact { h with
    auxLength := ⟨hlen.symm ▸ hl, hlen.symm ▸ hmax⟩
    auxCursor := hlen.symm ▸ hl
    placeholder := nofun }

theorem inv_auxClear {s : State} (h : Inv s) :
    Inv { s with auxEmpty := true, auxLen := 1, auxPos := 0, auxErr := false } :=
  { h with
    auxLength := ⟨le_rfl, auxMax_pos h.config⟩
    auxCursor := Nat.zero_lt_one
    placeholder := fun _ => ⟨rfl, rfl⟩ }

/-! ### Every command and every step -/

theorem exec_inv {i : Instr} {s t : State} (h : Inv s) (hexec : exec i s = .next t) : Inv t := by
  obtain rfl | ⟨c, rfl⟩ | ⟨_, rfl⟩ | ⟨_, rfl⟩ | ⟨_, he, rfl⟩ | ⟨_, he, rfl⟩ | ⟨_, he, rfl⟩ | ⟨f, _, _, he, rfl⟩ |
    ⟨f, _, _, he, rfl⟩ | ⟨n, _, _, _, _, rfl⟩ | ⟨n, _, ha, hs, _, hn, rfl⟩ | ⟨n, _, ha, hs, _, hn, rfl⟩ |
    ⟨_, _, _, rfl⟩ | ⟨l, _, hl, hmax, rfl⟩ | ⟨_, rfl⟩ := exec_cases hexec
  · exact h
  · exact inv_raiseFault h c
  · exact inv_ringReset h rfl false
  · exact inv_disable h
  · exact inv_pause h he
  · exact inv_ringReset h he false
  · exact inv_ringReset h he s.paused
  · exact inv_setFps_enabled h he f
  · exact inv_setFps_disabled h he f
  · exact inv_mixBody h n
  · exact inv_pushBody h ha hs hn
  · exact inv_pushBody (inv_mixBody h n) ha hs hn
  · exact { h with }
  · exact inv_auxLoad h hl hmax
  · exact inv_auxClear h

/-- Settles O15: each effect of a step, and `exec_inv` for the commands. -/
theorem everyStepKeepsTheInvariant : Obligations.EveryStepKeepsTheInvariant := by
  unfold Obligations.EveryStepKeepsTheInvariant
  intro s t h hstep
  obtain ⟨_, ⟨_, rfl⟩ | ⟨e, rest, u, _, hu, heffect⟩⟩ := step_effect hstep
  · exact h
  · have hinv : Inv u := hu ▸ h.of_model_fields ..
    obtain ⟨r, rfl | rfl | rfl⟩ | rfl | ⟨c, rfl⟩ | ⟨i, _, hexec⟩ | ⟨off, bs, _, _, rfl⟩ | ⟨_, rfl⟩ := heffect
    · exact inv_recordRead hinv r
    · exact inv_recordRead (inv_drawAny hinv _) r
    · exact inv_recordRead (inv_drawAny (inv_raiseFault hinv _) _) r
    · exact hinv
    · exact inv_raiseFault hinv c
    · exact exec_inv hinv hexec
    · exact inv_store hinv off bs
    · exact inv_powerOnReset hinv

end Sys2Proof.Machine

/-! ### Which commands write FPS, SINK and DRAIN_COUNT (spec/10_state.md R30, R36, R41) -/

namespace Sys2Proof.Machine

open Sys2Proof

/-- Settles O22: the arms of a command other than SET_FPS. -/
theorem onlySetFpsChangesTheRate : Obligations.OnlySetFpsChangesTheRate := by
  unfold Obligations.OnlySetFpsChangesTheRate
  intro i s t hi h
  obtain rfl | ⟨c, rfl⟩ | ⟨_, rfl⟩ | ⟨_, rfl⟩ | ⟨_, _, rfl⟩ | ⟨_, _, rfl⟩ | ⟨_, _, rfl⟩ | ⟨f, hrate, _⟩ |
    ⟨f, hrate, _⟩ | ⟨n, _, _, _, _, rfl⟩ | ⟨n, _, _, _, _, _, rfl⟩ | ⟨n, _, _, _, _, _, rfl⟩ | ⟨_, _, _, rfl⟩ |
    ⟨_, _, _, _, rfl⟩ | ⟨_, rfl⟩ := exec_cases h
  · rfl
  · exact raiseFault_fps c s
  · exact ringReset_fps _
  · rfl
  · rfl
  · exact ringReset_fps _
  · exact ringReset_fps s
  · exact absurd hrate (hi _)
  · exact absurd hrate (hi _)
  · exact mixBody_fps n s
  · exact pushBody_fps n s
  · exact pushBody_fps n (mixBody n s)
  · rfl
  · rfl
  · rfl

/-- A command that is neither PUSH nor TICK delivers nothing. -/
theorem exec_sink_of_no_delivery {i : Instr} {s t : State} (hi : ∀ n, i ≠ .push n ∧ i ≠ .tick n)
    (h : exec i s = .next t) : t.sink = s.sink ∧ t.drainCount = s.drainCount := by
  obtain rfl | ⟨c, rfl⟩ | ⟨_, rfl⟩ | ⟨_, rfl⟩ | ⟨_, _, rfl⟩ | ⟨_, _, rfl⟩ | ⟨_, _, rfl⟩ | ⟨_, _, _, _, rfl⟩ |
    ⟨_, _, _, _, rfl⟩ | ⟨n, _, _, _, _, rfl⟩ | ⟨n, hpush, _⟩ | ⟨n, htick, _⟩ | ⟨_, _, _, rfl⟩ |
    ⟨_, _, _, _, rfl⟩ | ⟨_, rfl⟩ := exec_cases h
  · exact ⟨rfl, rfl⟩
  · exact ⟨raiseFault_sink c s, raiseFault_drainCount c s⟩
  · exact ⟨ringReset_sink _, ringReset_drainCount _⟩
  · exact ⟨rfl, rfl⟩
  · exact ⟨rfl, rfl⟩
  · exact ⟨ringReset_sink _, ringReset_drainCount _⟩
  · exact ⟨ringReset_sink s, ringReset_drainCount s⟩
  · exact ⟨rfl, rfl⟩
  · exact ⟨rfl, rfl⟩
  · exact ⟨mixBody_sink n s, mixBody_drainCount n s⟩
  · exact absurd hpush (hi n).1
  · exact absurd htick (hi n).2
  · exact ⟨rfl, rfl⟩
  · exact ⟨rfl, rfl⟩
  · exact ⟨rfl, rfl⟩

/-- A push past its checks appends one event and counts it (R105). -/
theorem pushBody_delivers (n : Nat) (s : State) :
    (∃ e, (pushBody n s).sink = s.sink ++ [e]) ∧ (pushBody n s).drainCount = s.drainCount + 1 :=
  ⟨⟨_, rfl⟩, rfl⟩

/-- Everything a PUSH or TICK can do to SINK: nothing while inactive, nothing where it faults, or one delivery. -/
theorem exec_delivery_cases {i : Instr} {n : Nat} {s t : State} (hi : i = .push n ∨ i = .tick n)
    (h : exec i s = .next t) :
    (active s = false ∧ t = s) ∨ (∃ c, t = raiseFault c s) ∨
    (active s = true ∧ t.fault = s.fault ∧ (∃ e, t.sink = s.sink ++ [e]) ∧ t.drainCount = s.drainCount + 1) := by
  obtain rfl | rfl := hi
  · change execPush n s = _ at h
    obtain ⟨ha, h'⟩ | ⟨_, _, h'⟩ | ⟨_, _, _, h'⟩ | ⟨_, _, _, _, h'⟩ | ⟨ha, _, _, _, h'⟩ := execPush_cases n s <;>
      obtain rfl := Host.Outcome.next.inj (h.symm.trans h')
    · exact .inl ⟨ha, rfl⟩
    · exact .inr (.inl ⟨_, rfl⟩)
    · exact .inr (.inl ⟨_, rfl⟩)
    · exact .inr (.inl ⟨_, rfl⟩)
    · exact .inr (.inr ⟨ha, rfl, pushBody_delivers n s⟩)
  · change execTick n s = _ at h
    obtain ⟨ha, h'⟩ | ⟨_, _, h'⟩ | ⟨_, _, _, h'⟩ | ⟨_, _, _, _, h'⟩ | ⟨ha, _, _, _, h'⟩ := execTick_cases n s <;>
      obtain rfl := Host.Outcome.next.inj (h.symm.trans h')
    · exact .inl ⟨ha, rfl⟩
    · exact .inr (.inl ⟨_, rfl⟩)
    · exact .inr (.inl ⟨_, rfl⟩)
    · exact .inr (.inl ⟨_, rfl⟩)
    · exact .inr (.inr ⟨ha, rfl, pushBody_delivers n (mixBody n s)⟩)

/-- Settles O29: the three outcomes of a PUSH or TICK, and the commands that deliver nothing. -/
theorem oneEventPerDelivery : Obligations.OneEventPerDelivery := by
  unfold Obligations.OneEventPerDelivery
  intro i s t hf h
  refine ⟨fun ⟨n, hi⟩ hactive htf => ?_, fun hidle => ?_⟩
  · obtain ⟨hinactive, _⟩ | ⟨c, rfl⟩ | ⟨_, _, hdelivered⟩ := exec_delivery_cases hi h
    · simp [hinactive] at hactive
    · simp at htf
    · exact hdelivered
  · by_cases hi : ∃ n, i = .push n ∨ i = .tick n
    · obtain ⟨n, hi⟩ := hi
      obtain ⟨_, rfl⟩ | ⟨c, rfl⟩ | ⟨hactive, hfault, _⟩ := exec_delivery_cases hi h
      · exact ⟨rfl, rfl⟩
      · simp
      · obtain hno | hinactive | htf := hidle
        · exact absurd hi (not_or.2 (hno n))
        · simp [hinactive] at hactive
        · simp [hfault, hf] at htf
    · exact exec_sink_of_no_delivery (by simpa using hi) h

/-- A command appends at most one event (R41). -/
theorem exec_sink_append {i : Instr} {s t : State} (h : exec i s = .next t) :
    ∃ es, t.sink = s.sink ++ es ∧ es.length ≤ 1 := by
  by_cases hi : ∃ n, i = .push n ∨ i = .tick n
  · obtain ⟨n, hi⟩ := hi
    obtain ⟨_, rfl⟩ | ⟨c, rfl⟩ | ⟨_, _, ⟨e, hsink⟩, _⟩ := exec_delivery_cases hi h
    · exact ⟨[], by simp⟩
    · exact ⟨[], by simp⟩
    · exact ⟨[e], hsink, le_rfl⟩
  · exact ⟨[], by simpa using (exec_sink_of_no_delivery (by simpa using hi) h).1, Nat.zero_le 1⟩

/-- Settles O30: each effect of a step but power-on reset, and `exec_sink_append` for the commands. -/
theorem sinkIsAppendOnly : Obligations.SinkIsAppendOnly := by
  unfold Obligations.SinkIsAppendOnly
  intro s t hno h
  obtain ⟨_, ⟨_, rfl⟩ | ⟨e, rest, u, hp, hu, heffect⟩⟩ := step_effect h
  · exact ⟨[], by simp⟩
  · have hsink : u.sink = s.sink := by rw [hu]
    rw [← hsink]
    obtain ⟨r, rfl | rfl | rfl⟩ | rfl | ⟨c, rfl⟩ | ⟨i, _, hexec⟩ | ⟨off, bs, _, _, rfl⟩ | ⟨rfl, _⟩ := heffect
    · exact ⟨[], by simp⟩
    · exact ⟨[], by simp⟩
    · exact ⟨[], by simp⟩
    · exact ⟨[], by simp⟩
    · exact ⟨[], by simp⟩
    · exact exec_sink_append hexec
    · exact ⟨[], by simp⟩
    · exact absurd hp (hno rest)

end Sys2Proof.Machine

/-! ### What the registers read (spec/10_state.md R23, R24) -/

namespace Sys2Proof.Machine

open Sys2Proof

/-- The registers stand at the multiples of 4 below 0x02C (R23, R51). -/
theorem accessOk_register (s : State) {off : Nat} (halign : off % 4 = 0) (hlt : off < 0x02C) :
    region off = .regs ∧ accessOk s off 4 = true := by
  have hreg : region off = .regs := if_pos (by omega)
  refine ⟨hreg, (accessOk_iff s off 4).2 ⟨by decide, halign, ?_, fun _ => rfl⟩⟩
  simp only [hreg, regionBase, liveSize]
  omega

/-- A 32-bit read of a register, with no side effect (R30). -/
theorem memRead_register_word (s : State) {off : Nat} (halign : off % 4 = 0) (hlt : off < 0x02C) :
    memRead 4 off s = ((registerValue s off).toNat, s) :=
  have ⟨hreg, hok⟩ := accessOk_register s halign hlt
  memRead_register hok hreg

theorem statusWord_faultCode (s : State) : (statusWord s).extractLsb' 8 4 = s.faultCode := by
  apply BitVec.eq_of_getLsbD_eq
  intro i hi
  rw [BitVec.getLsbD_extractLsb', statusWord_getLsbD]
  interval_cases i <;> simp

/-- Settles O49: bit by bit, the fault code's field, and the read of STATUS. -/
theorem statusFieldsStandInTheirBits : Obligations.StatusFieldsStandInTheirBits := by
  unfold Obligations.StatusFieldsStandInTheirBits
  intro s
  have hbit := statusWord_getLsbD s
  refine ⟨hbit 0, hbit 1, hbit 2, hbit 3, hbit 4, hbit 5, hbit 6, hbit 7, statusWord_faultCode s, fun i hi => ?_,
    memRead_register_word s (by decide) (by decide)⟩
  rw [hbit]
  grind

/-- The sizes fit their 32-bit registers (R10, R11). -/
theorem memRead_of_size {s : State} {off v : Nat} (halign : off % 4 = 0) (hlt : off < 0x02C)
    (hv : registerValue s off = BitVec.ofNat 32 v) (hfits : v ≤ 262144) : memRead 4 off s = (v, s) := by
  rw [memRead_register_word s halign hlt, hv, BitVec.toNat_ofNat, Nat.mod_eq_of_lt (by omega)]

theorem fpsNat_le (f : Fps) : fpsNat f ≤ 120 := by
  cases f <;> decide

/-- Settles O50: register by register; the sizes by the bounds of R11. -/
theorem registersReadTheirValues : Obligations.RegistersReadTheirValues := by
  unfold Obligations.RegistersReadTheirValues
  intro s hc
  have hfps := fpsNat_le s.fps
  have hmix := mixLen_le hc s.fps
  have hcap := cap_le hc s.fps
  have hlen : mixLen s.cfg s.fps = 2 * (s.cfg.sampleRate / fpsNat s.fps) := mixLen_eq s.cfg s.fps
  refine ⟨memRead_register_word s ?_ ?_, memRead_of_size ?_ ?_ rfl ?_, memRead_of_size ?_ ?_ (hlen ▸ rfl) ?_,
    memRead_of_size ?_ ?_ rfl ?_, memRead_of_size ?_ ?_ rfl hcap, memRead_register_word s ?_ ?_,
    memRead_register_word s ?_ ?_, memRead_register_word s ?_ ?_, memRead_register_word s ?_ ?_,
    memRead_register_word s ?_ ?_⟩ <;> omega

end Sys2Proof.Machine

/-! ### A write to CMD and power-on reset (spec/10_state.md R37, R45; spec/30_encoding.md R75) -/

namespace Sys2Proof.Machine

open Sys2Proof

/-- R75: a word that is a command runs it, unless the block is halted. -/
theorem execute_of_command {w : Word} {i : Instr} {s : State} (hf : s.fault = false) (hd : decode w = .command i) :
    execute w s = exec i s := by
  simp [execute, hf, hd]

/-- R37, R59: a 32-bit write to CMD executes the word. -/
theorem memWrite_cmd (w : Word) (s : State) : memWrite 4 0 w s = execute w s := by
  have ⟨hreg, hok⟩ := accessOk_register s (off := 0) rfl (by decide)
  simp [memWrite, hok, hreg]

/-- The step of a 32-bit write to CMD. -/
theorem step_of_cmd_write {s : State} {rest : List HostEvent} {w : Word} {i : Instr} (hc : configWf s.cfg = true)
    (hf : s.fault = false) (hp : s.pending = .write 4 s.cfg.base w :: rest) (hd : decode w = .command i) :
    step s = exec i { s with pending := rest } := by
  have hoff : busOffset s.cfg s.cfg.base = some 0 := busOffset_add s.cfg (off := 0) (by decide)
  calc step s = busWrite 4 s.cfg.base w { s with pending := rest } := step_of_pending hc hp
    _ = memWrite 4 0 w { s with pending := rest } := by simp only [busWrite, hoff]
    _ = execute w { s with pending := rest } := memWrite_cmd w _
    _ = exec i { s with pending := rest } := execute_of_command hf hd

/-- OP and ARG of a command's word, for every command (R76). -/
theorem encode_fields (i : Instr) : Laws.EncodeFields.Statement i := by
  cases i with
  | nop => exact Laws.EncodeFields.nop
  | enable => exact Laws.EncodeFields.enable
  | disable => exact Laws.EncodeFields.disable
  | pause => exact Laws.EncodeFields.pause
  | resume => exact Laws.EncodeFields.resume
  | setFps v => exact Laws.EncodeFields.setFps v
  | reset => exact Laws.EncodeFields.reset
  | mix n => exact Laws.EncodeFields.mix n
  | push n => exact Laws.EncodeFields.push n
  | tick n => exact Laws.EncodeFields.tick n
  | auxLoad l => exact Laws.EncodeFields.auxLoad l
  | auxClear => exact Laws.EncodeFields.auxClear

/-- The opcode match on a command's own opcode and operand is that command (R78). -/
theorem decodeFields_opcode_operand (i : Instr) : decodeFields i.opcode i.operand = .command i := by
  cases i <;> rfl

theorem decode_encode_of_wellFormed {i : Instr} (h : i.wellFormed = true) : decode (encode i) = .command i := by
  obtain ⟨hop, harg⟩ := encode_fields i
  rw [decode, hop, harg h, decodeFields_opcode_operand]

/-- Settles O8: `step_of_cmd_write` on the three ways to place the write. -/
theorem stepRunsTheDecodedCommand : Obligations.StepRunsTheDecodedCommand := by
  unfold Obligations.StepRunsTheDecodedCommand
  refine ⟨fun s rest w i => step_of_cmd_write, fun s w i hc hf hd => ?_, fun s rest i hc hf hi hp => ?_⟩
  · have hw : BitVec.ofNat 32 (w.toNat % 2 ^ 32) = w := by
      rw [Nat.mod_eq_of_lt w.isLt, BitVec.ofNat_toNat, BitVec.setWidth_eq]
    refine step_of_cmd_write (s := s.withFetchWord 32 w.toNat) hc hf ?_ hd
    rw [State.withFetchWord, hw]
  · exact step_of_cmd_write hc hf hp (decode_encode_of_wellFormed hi)

/-- The table of R45 sets AUX_EMPTY alone of STATUS's fields, in every configuration: STATUS does not read it. -/
theorem statusWord_powerOn (c : Config) : statusWord (State.powerOn c) = 8 := by
  change statusWord State.reset = 8
  decide

/-- Settles O12: every field of the power-on state is the table's constant. -/
theorem powerOnStateIsTheTable : Obligations.PowerOnStateIsTheTable := by
  unfold Obligations.PowerOnStateIsTheTable
  exact ⟨rfl, fun c => ⟨rfl, rfl, rfl, rfl, rfl, rfl, rfl, rfl, rfl, rfl, rfl, rfl, rfl, rfl, rfl,
    statusWord_powerOn c⟩⟩

/-- After a power-on reset no byte is listed, so a byte outside MIXBUF and RING is a free value of the new power-on (I4). -/
theorem byteAt_powerOnReset (s : State) {a : Nat} (ha : a < 0x030000 ∨ 0x080000 ≤ a) :
    byteAt (powerOnReset s) a = Config.powerOnByte (s.epoch + 1) a := by
  have hfree : Memory.unlisted a = none := if_neg (by omega)
  simp [byteAt, Memory.lookup, hfree]

/-- Settles O13: the event's state is `powerOnReset`, and PCM_IN lies below MIXBUF. -/
theorem powerOnResetEventClearsTheBlock : Obligations.PowerOnResetEventClearsTheBlock := by
  unfold Obligations.PowerOnResetEventClearsTheBlock
  intro s rest hc hp
  refine ⟨powerOnReset { s with pending := rest }, step_of_pending hc hp, rfl, statusWord_powerOn s.cfg, fun k hk => ?_⟩
  have hmax := streamMax_le hc
  exact byteAt_powerOnReset _ (.inl (show 0x010000 + 2 * k < 0x030000 by omega))

end Sys2Proof.Machine

/-! ### Host accesses to the windows (spec/20_memory.md R51 to R59, R72) -/

namespace Sys2Proof.Machine

open Sys2Proof

/-! ### Rows of the window map -/

/-- The offsets of each row of R51; `region_eq_iff` ties it to `region`. -/
def InRow : Region → Nat → Prop
  | .regs, off => off < 0x001000
  | .pcmIn, off => 0x010000 ≤ off ∧ off < 0x020000
  | .synthIn, off => 0x020000 ≤ off ∧ off < 0x030000
  | .mixbuf, off => 0x030000 ≤ off ∧ off < 0x040000
  | .ring, off => 0x040000 ≤ off ∧ off < 0x080000
  | .auxRam, off => 0x800000 ≤ off ∧ off < 0x1000000
  | .reserved, off => (0x001000 ≤ off ∧ off < 0x010000) ∨ (0x080000 ≤ off ∧ off < 0x800000) ∨ 0x1000000 ≤ off

theorem inRow_region (off : Nat) : InRow (region off) off := by
  have hb := region_bounds off
  cases hr : region off <;> rw [hr] at hb <;> exact hb

/-- The rows of R51 do not overlap. -/
theorem region_of_inRow {r : Region} {off : Nat} (h : InRow r off) : region off = r := by
  cases r <;> grind [InRow, region]

theorem region_eq_iff {off : Nat} {r : Region} : region off = r ↔ InRow r off :=
  ⟨fun h => h ▸ inRow_region off, region_of_inRow⟩

/-! ### The access check -/

/-- An access within the live part of the row it begins in (R57, R59). -/
theorem accessOk_of_row {s : State} {off n : Nat} {r : Region} (hr : InRow r off) (hn : n = 1 ∨ n = 2 ∨ n = 4)
    (halign : off % n = 0) (hlive : off + n ≤ regionBase r + liveSize s r) (hregs : r = .regs → n = 4) :
    accessOk s off n = true := by
  obtain rfl := region_eq_iff.2 hr
  exact (accessOk_iff s off n).2 ⟨hn, halign, hlive, hregs⟩

/-- The access check reads the configuration and the rate alone. -/
theorem accessOk_congr {s t : State} (hcfg : t.cfg = s.cfg) (hfps : t.fps = s.fps) (off n : Nat) :
    accessOk t off n = accessOk s off n := by
  have hlive : ∀ r, liveSize t r = liveSize s r := fun r => by cases r <;> simp only [liveSize, hcfg, hfps]
  simp only [accessOk, live, hlive]

/-- Settles O43: row by row; in a well-formed configuration every live part ends within its row (R11). -/
theorem legalAccessesAreTheWindows : Obligations.LegalAccessesAreTheWindows := by
  unfold Obligations.LegalAccessesAreTheWindows
  intro s off n hc
  have hstream := streamMax_le hc
  have hmix := mixLen_le hc .fps30
  have hcap := cap_le hc s.fps
  have haux := auxMax_le hc
  constructor
  · intro h
    obtain ⟨hn, halign, hlive, hregs⟩ := (accessOk_iff s off n).1 h
    have hrow := inRow_region off
    refine ⟨hn, halign, ?_⟩
    cases hr : region off <;> rw [hr] at hlive hrow hregs <;>
      simp only [regionBase, liveSize, mixLenMax, InRow, pcmBase, synthBase, mixBase, ringBase, auxBase] at hlive hrow
    case regs => have := hregs rfl; omega
    all_goals omega
  · rintro ⟨hn, halign, ⟨rfl, hl⟩ | ⟨hlo, hl⟩ | ⟨hlo, hl⟩ | ⟨hlo, hl⟩ | ⟨hlo, hl⟩ | ⟨hlo, hl⟩⟩
    · exact (accessOk_register s halign (by omega)).2
    · exact accessOk_of_row (r := .pcmIn) ⟨hlo, by omega⟩ hn halign hl nofun
    · exact accessOk_of_row (r := .synthIn) ⟨hlo, by omega⟩ hn halign hl nofun
    · exact accessOk_of_row (r := .mixbuf) ⟨hlo, by omega⟩ hn halign hl nofun
    · exact accessOk_of_row (r := .ring) ⟨hlo, by omega⟩ hn halign hl nofun
    · exact accessOk_of_row (r := .auxRam) ⟨hlo, by omega⟩ hn halign hl nofun

/-! ### What an access does, by its kind -/

theorem memWrite_busError {s : State} {off n : Nat} (v : Word) (h : accessOk s off n = false) :
    memWrite n off v s = .next (raiseFault .busError s) := by
  simp [memWrite, h]

theorem memRead_busError {s : State} {off n : Nat} (h : accessOk s off n = false) :
    memRead n off s = drawAny n (raiseFault .busError s) := by
  simp [memRead, h]

theorem memWrite_readOnly {s : State} {off n : Nat} (v : Word) (h : accessOk s off n = true)
    (hr : (region off = .regs ∧ off ≠ 0) ∨ region off = .mixbuf ∨ region off = .ring) :
    memWrite n off v s = .next s := by
  obtain ⟨hr, h0⟩ | hr | hr := hr
  · simp [memWrite, h, hr, h0]
  · simp [memWrite, h, hr]
  · simp [memWrite, h, hr]

theorem memWrite_data {s : State} {off n : Nat} (v : Word) (h : accessOk s off n = true)
    (hr : region off = .pcmIn ∨ region off = .synthIn ∨ region off = .auxRam) :
    memWrite n off v s = .next (s.store off ((List.range n).map (byteOf v))) := by
  obtain hr | hr | hr := hr <;> simp [memWrite, h, hr]

/-- Settles O44. -/
theorem busErrorHasNoOtherEffect : Obligations.BusErrorHasNoOtherEffect := by
  unfold Obligations.BusErrorHasNoOtherEffect
  intro s off n v h
  refine ⟨memWrite_busError v h, ?_, ?_⟩ <;> rw [memRead_busError h] <;> simp [drawAny]

/-- Settles O46. -/
theorem readOnlyWindowsIgnoreWrites : Obligations.ReadOnlyWindowsIgnoreWrites := by
  unfold Obligations.ReadOnlyWindowsIgnoreWrites
  exact fun s off n v => memWrite_readOnly v

/-! ### Reads that R56 defines -/

/-- R56 leaves no read unspecified but those of an invalid buffer and of a MIXBUF element at or above MIXLEN. -/
theorem specified_of_valid {s : State} {off n : Nat} (hn : 1 ≤ n)
    (hmix : 0x030000 ≤ off → off < 0x040000 → s.bufsValid = true ∧ off + n ≤ 0x030000 + 2 * mixLen s.cfg s.fps)
    (hring : 0x040000 ≤ off → off < 0x080000 → s.bufsValid = true) : unspecified s off n = false := by
  rw [Bool.eq_false_iff, ne_eq, unspecified_iff, region_eq_iff, region_eq_iff]
  rintro (⟨⟨hlo, hhi⟩, hbad⟩ | ⟨⟨hlo, hhi⟩, hbad⟩)
  · obtain ⟨hvalid, hlen⟩ := hmix hlo hhi
    obtain hbad | hbad := hbad
    · simp [hvalid] at hbad
    · simp only [mixBase] at hbad
      omega
  · simp [hring hlo hhi] at hbad

/-- A legal read that R56 defines has no side effect (R61). -/
theorem memRead_keeps_state {s : State} {off n : Nat} (h : accessOk s off n = true)
    (hu : unspecified s off n = false) : (memRead n off s).2 = s := by
  by_cases hr : region off = .regs
  · rw [memRead_register h hr]
  · rw [memRead_defined h hr hu]

/-- A legal read above the registers that R56 defines returns its bytes (R59). -/
theorem memRead_bytes {s : State} {off n : Nat} (h : accessOk s off n = true) (hlo : 0x010000 ≤ off)
    (hu : unspecified s off n = false) :
    memRead n off s = (composeLE ((List.range n).map (fun j => byteAt s (off + j))), s) := by
  refine memRead_defined h (fun hr => ?_) hu
  have hrow : off < 0x001000 := region_eq_iff.1 hr
  omega

/-- Settles O47: the defined reads by `specified_of_valid`, the others by the two exceptions of R56. -/
theorem readsHaveNoSideEffects : Obligations.ReadsHaveNoSideEffects := by
  unfold Obligations.ReadsHaveNoSideEffects
  intro s off n h
  have hn : 1 ≤ n := (accessOk_region h).2.1
  have hdraw : unspecified s off n = true → (memRead n off s).2 = { s with anyCount := s.anyCount + 1 } ∧
      (memRead n off s).1 = Config.anyRead s.anyCount % 2 ^ (8 * n) := fun hu => by
    rw [memRead_unspecified h hu]
    exact ⟨rfl, rfl⟩
  refine ⟨fun hout => ?outside, fun hlo hhi hvalid hlen => ?mixbuf, fun hlo hhi hvalid => ?ring,
    fun hlo hhi hinvalid => hdraw ?invalid, fun hhi hlen => hdraw ?aboveMixLen⟩
  case outside => exact memRead_keeps_state h (specified_of_valid hn (by omega) (by omega))
  case mixbuf => exact memRead_keeps_state h (specified_of_valid hn (fun _ _ => ⟨hvalid, hlen⟩) (fun _ _ => hvalid))
  case ring => exact memRead_keeps_state h (specified_of_valid hn (by omega) (fun _ _ => hvalid))
  case invalid =>
    rw [unspecified_iff, region_eq_iff, region_eq_iff]
    by_cases hmix : off < 0x040000
    · exact .inl ⟨⟨hlo, hmix⟩, .inl hinvalid⟩
    · exact .inr ⟨⟨by omega, hhi⟩, hinvalid⟩
  case aboveMixLen =>
    rw [unspecified_iff, region_eq_iff]
    refine .inl ⟨⟨by omega, hhi⟩, .inr ?_⟩
    simp only [mixBase]
    omega

/-! ### A write and the read of the same bytes -/

/-- Byte by byte, what a store of the low `n` bytes of a word leaves (R53). -/
theorem byteAt_store_word (s : State) (off n : Nat) (v : Word) {j : Nat} (hj : j < n) :
    byteAt (s.store off ((List.range n).map (byteOf v))) (off + j) = byteOf v j := by
  rw [byteAt_store, dif_pos (by simp; omega)]
  simp

theorem sameOutside_store_word (s : State) (off n : Nat) (v : Word) :
    sameOutside off n s (s.store off ((List.range n).map (byteOf v))) := fun a ha => by
  rw [byteAt_store, dif_neg (by simp; omega)]

/-- The bytes of an input window are defined whatever BUFS_VALID says (R56). -/
theorem specified_of_data {off : Nat} (hr : region off = .pcmIn ∨ region off = .synthIn ∨ region off = .auxRam)
    (s : State) (n : Nat) : unspecified s off n = false := by
  obtain hr | hr | hr := hr <;> simp [unspecified, hr]

/-- Settles O45: the write is a store, and the read composes the bytes it stored. -/
theorem dataWriteThenRead : Obligations.DataWriteThenRead := by
  unfold Obligations.DataWriteThenRead
  intro s off n v h hr
  have hbyte := fun j (hj : j < n) => byteAt_store_word s off n v hj
  refine ⟨_, memWrite_data v h hr, rfl, hbyte, sameOutside_store_word s off n v, ?_⟩
  have hregs : region off ≠ .regs := by obtain hr | hr | hr := hr <;> simp [hr]
  have hbytes : (List.range n).map (fun j => byteAt (s.store off ((List.range n).map (byteOf v))) (off + j)) =
      (List.range n).map (byteOf v) := List.map_congr_left fun j hj => hbyte j (List.mem_range.1 hj)
  have hok : accessOk (s.store off ((List.range n).map (byteOf v))) off n = true :=
    (accessOk_congr rfl rfl off n).trans h
  rw [memRead_defined hok hregs (specified_of_data hr _ n), hbytes, composeLE_byteOf v ((accessOk_iff s off n).1 h).1]

/-! ### The values bytes compose to -/

/-- The value of joined bit vectors: the right one holds the low bits. -/
theorem toNat_append_eq {a b : Nat} (x : BitVec a) (y : BitVec b) : (x ++ y).toNat = 2 ^ b * x.toNat + y.toNat := by
  rw [BitVec.toNat_append, ← Nat.shiftLeft_add_eq_or_of_lt y.isLt, Nat.shiftLeft_eq, Nat.mul_comm]

/-- Two bytes compose to the element they are (R54). -/
theorem composeLE_elem (s : State) (base k : Nat) :
    composeLE ((List.range 2).map (fun j => byteAt s (base + 2 * k + j))) = (elemAt s base k).toNat := by
  rw [elemAt, toNat_append_eq]
  simp [List.range_succ, composeLE]
  omega

/-- Four bytes compose with the lowest offset in the lowest bits (R53). -/
theorem composeLE_four (s : State) (off : Nat) :
    composeLE ((List.range 4).map (fun j => byteAt s (off + j))) =
      (byteAt s (off + 3) ++ byteAt s (off + 2) ++ byteAt s (off + 1) ++ byteAt s off).toNat := by
  simp only [toNat_append_eq]
  simp [List.range_succ, composeLE]
  omega

/-- Four bytes from an element's offset on compose to it and the next one (R72). -/
theorem composeLE_two_elems (s : State) (base k : Nat) :
    composeLE ((List.range 4).map (fun j => byteAt s (base + 2 * k + j))) =
      (elemAt s base (k + 1) ++ elemAt s base k).toNat := by
  have hlo : base + 2 * (k + 1) = base + 2 * k + 2 := by omega
  have hhi : base + 2 * (k + 1) + 1 = base + 2 * k + 3 := by omega
  rw [composeLE_four, elemAt, elemAt, hhi, hlo]
  simp only [toNat_append_eq]
  omega

/-- A legal read of bytes of element `k` of an int16 window, where R56 defines it (R59). -/
theorem memRead_elemWindow {s : State} {base k off n : Nat} (hbase : base ∈ [pcmBase, synthBase, mixBase, auxBase])
    (h : accessOk s off n = true) (hlo : base + 2 * k ≤ off) (hhi : off < base + 2 * (k + 1))
    (hk : base ≠ auxBase → k < 32768)
    (hmix : base = mixBase → s.bufsValid = true ∧ off + n ≤ base + 2 * mixLen s.cfg s.fps) :
    memRead n off s = (composeLE ((List.range n).map (fun j => byteAt s (off + j))), s) := by
  have hn : 1 ≤ n := (accessOk_region h).2.1
  have hwindow : 0x010000 ≤ off ∧ (off < 0x030000 ∨ 0x080000 ≤ off ∨ (base = mixBase ∧ off < 0x040000)) := by
    simp only [List.mem_cons, List.not_mem_nil, or_false, pcmBase, synthBase, mixBase, auxBase] at hbase hk ⊢
    omega
  refine memRead_bytes h hwindow.1 (specified_of_valid hn (fun _ _ => ?_) (fun _ _ => ?_))
  · have hbase : base = mixBase := by omega
    subst hbase
    exact hmix rfl
  · omega

/-- Settles O48: the bytes of the read, composed. -/
theorem mixedWidthReads : Obligations.MixedWidthReads := by
  unfold Obligations.MixedWidthReads
  refine fun s => ⟨fun base hbase k h hk hmix => ?words, fun base hbase k h hk hmix => ?highBytes,
    fun b h hvalid => ?ring⟩
  case words =>
    rw [memRead_elemWindow hbase h le_rfl (by omega) hk fun hb => ⟨(hmix hb).1, by have := (hmix hb).2; omega⟩]
    exact composeLE_two_elems s base k
  case highBytes =>
    rw [memRead_elemWindow hbase h (by omega) (by omega) hk fun hb => ⟨(hmix hb).1, by have := (hmix hb).2; omega⟩]
    exact (composeLE_singleton _).trans (congrArg BitVec.toNat (hiByte_elemAt s base k).symm)
  case ring =>
    have hlo : 0x040000 ≤ ringBase + b := Nat.le_add_right _ _
    rw [memRead_bytes h (by omega) (specified_of_valid (by decide) (by omega) fun _ _ => hvalid)]
    exact composeLE_four s (ringBase + b)

/-! ### The step of a host read -/

/-- RMIX of a live element reads it (R56, R85). -/
theorem memRead_mixAt {s : State} {k : Nat} (hc : configWf s.cfg = true) (hvalid : s.bufsValid = true)
    (hk : k < mixLen s.cfg s.fps) : memRead 2 (0x030000 + 2 * k) s = ((mixAt s k).toNat, s) := by
  have hmax := mixLen_le_max s.cfg s.fps
  have hfits := mixLen_le hc s.fps
  have hok : accessOk s (0x030000 + 2 * k) 2 = true :=
    accessOk_of_row (r := .mixbuf) ⟨by omega, by omega⟩ (by decide) (by omega)
      (by simp only [regionBase, liveSize, mixBase]; omega) nofun
  rw [memRead_bytes hok (by omega) (specified_of_valid (by decide) (fun _ _ => ⟨hvalid, by omega⟩) (by omega))]
  exact Prod.ext (composeLE_elem s mixBase k) rfl

/-- RRING of a byte of the ring reads it (R56, R85). -/
theorem memRead_ringAt {s : State} {b : Nat} (hc : configWf s.cfg = true) (hvalid : s.bufsValid = true)
    (hb : b < cap s.cfg s.fps) : memRead 1 (0x040000 + b) s = ((ringAt s b).toNat, s) := by
  have hcap := cap_le hc s.fps
  have hok : accessOk s (0x040000 + b) 1 = true :=
    accessOk_of_row (r := .ring) ⟨by omega, by omega⟩ (by decide) (by omega)
      (by simp only [regionBase, liveSize, ringBase]; omega) nofun
  rw [memRead_bytes hok (by omega) (specified_of_valid le_rfl (by omega) fun _ _ => hvalid)]
  exact Prod.ext (composeLE_singleton _) rfl

/-- The step of a read without side effect records its value and changes nothing else. -/
theorem step_read_value {s : State} {rest : List HostEvent} {n off v : Nat} (hc : configWf s.cfg = true)
    (hlt : off < 0x1000000) (hp : s.pending = .read n (s.cfg.base + off) :: rest)
    (hread : memRead n off { s with pending := rest } = (v, { s with pending := rest })) :
    step s = .next { s with pending := rest, readLog := s.readLog ++ [⟨n, off, v⟩] } := by
  rw [step_read hc hlt hp, hread, recordRead]

/-- Settles O52: `step_read` for every read, `step_read_value` for the pseudo-instructions. -/
theorem readStepsRecordWhatIsRead : Obligations.ReadStepsRecordWhatIsRead := by
  unfold Obligations.ReadStepsRecordWhatIsRead
  intro s rest hc
  refine ⟨fun n off hlt hp => ?anyRead,
    fun hp => step_read_value hc (by decide) hp (memRead_register_word _ (by decide) (by decide)),
    fun hp => step_read_value hc (by decide) hp (memRead_register_word _ (by decide) (by decide)),
    fun hp => step_read_value hc (by decide) hp (memRead_register_word _ (by decide) (by decide)),
    fun k hp hvalid hk => ?rmix, fun b hp hvalid hb => ?rring⟩
  case anyRead => rw [step_read hc hlt hp, recordRead, memRead_readLog]
  case rmix =>
    have hfits := mixLen_le hc s.fps
    exact step_read_value hc (by omega) hp (memRead_mixAt (s := { s with pending := rest }) hc hvalid hk)
  case rring =>
    have hcap := cap_le hc s.fps
    exact step_read_value hc (by omega) hp (memRead_ringAt (s := { s with pending := rest }) hc hvalid hb)

end Sys2Proof.Machine

/-! ### Words and commands (spec/30_encoding.md R75 to R83) -/

namespace Sys2Proof.Machine

open Sys2Proof

/-- Settles O1. -/
theorem decodeOfEncodeIsIdentity : Obligations.DecodeOfEncodeIsIdentity := by
  unfold Obligations.DecodeOfEncodeIsIdentity
  exact fun i => decode_encode_of_wellFormed

/-! ### The fields of a word (R76) -/

@[simp] theorem opField_toNat (w : Word) : (opField w).toNat = w.toNat % 256 := by
  simp [opField]

theorem argField_eq_div (w : Word) : argField w = w.toNat / 256 := by
  have := w.isLt
  simp only [argField, BitVec.extractLsb'_toNat, Nat.shiftRight_eq_div_pow]
  omega

/-- R77: a command is well-formed where its operand fits ARG; the operand of a command of R80 is 0. -/
theorem wellFormed_iff (i : Instr) : i.wellFormed = true ↔ i.operand ≤ 16777215 := by
  cases i <;> simp [Instr.wellFormed, operandFits, Instr.operand]

/-! ### The opcode match (R75, R78) -/

theorem requireZeroArg_command {i j : Instr} {op : Byte} {arg : Nat} (h : requireZeroArg i op arg = .command j) :
    j = i ∧ arg = 0 := by
  unfold requireZeroArg at h
  split at h
  · next harg => cases h; exact ⟨rfl, harg⟩
  · cases h

theorem requireZeroArg_illegal_iff (i : Instr) (op : Byte) (arg : Nat) :
    (∃ why, requireZeroArg i op arg = .illegal why) ↔ arg ≠ 0 := by
  unfold requireZeroArg
  split
  · next harg => simp [harg]
  · next harg => simp [harg]

/-- The opcode match answers a command only on that command's own opcode and operand, one arm for each. -/
theorem decodeFields_command {op : Byte} {arg : Nat} {i : Instr} (h : decodeFields op arg = .command i) :
    op = i.opcode ∧ arg = i.operand := by
  unfold decodeFields at h
  split at h
  -- The commands with an operand (R77); then the reserved opcodes; what is left requires ARG = 0 (R80).
  case h_6 hop | h_8 hop | h_9 hop | h_10 hop | h_11 hop =>
    cases h
    exact ⟨BitVec.eq_of_toNat_eq hop, rfl⟩
  case h_13 => cases h
  case h_1 hop | h_2 hop | h_3 hop | h_4 hop | h_5 hop | h_7 hop | h_12 hop =>
    obtain ⟨rfl, harg⟩ := requireZeroArg_command h
    exact ⟨BitVec.eq_of_toNat_eq hop, harg⟩

/-- The opcode match answers illegal on a reserved opcode (R79) and on a nonzero ARG of a command of R80 alone. -/
theorem decodeFields_illegal_iff (op : Byte) (arg : Nat) : (∃ why, decodeFields op arg = .illegal why) ↔
    12 ≤ op.toNat ∨ (op.toNat ∈ [0, 1, 2, 3, 4, 6, 11] ∧ arg ≠ 0) := by
  unfold decodeFields
  split
  -- The same three kinds of arm.
  case h_6 hop | h_8 hop | h_9 hop | h_10 hop | h_11 hop => simp [hop]
  case h_13 =>
    have hreserved : 12 ≤ op.toNat := by grind
    simp [hreserved]
  case h_1 hop | h_2 hop | h_3 hop | h_4 hop | h_5 hop | h_7 hop | h_12 hop =>
    simp [requireZeroArg_illegal_iff, hop]

/-- A word stands for a command where its fields are the command's opcode and operand: `(ARG << 8) | OP` (R76, R78). -/
theorem decode_eq_command_iff (w : Word) (i : Instr) :
    decode w = .command i ↔ w.toNat = i.operand * 256 + i.opcode.toNat := by
  have hop : i.opcode.toNat < 256 := i.opcode.isLt
  constructor
  · intro h
    obtain ⟨hopcode, hoperand⟩ := decodeFields_command h
    rw [← hopcode, ← hoperand, opField_toNat, argField_eq_div]
    omega
  · intro h
    have hopcode : opField w = i.opcode := BitVec.eq_of_toNat_eq (by rw [opField_toNat]; omega)
    have hoperand : argField w = i.operand := by rw [argField_eq_div]; omega
    rw [decode, hopcode, hoperand, decodeFields_opcode_operand]

theorem encode_toNat {i : Instr} (h : i.wellFormed = true) :
    (encode i).toNat = i.operand * 256 + i.opcode.toNat :=
  (decode_eq_command_iff _ _).1 (decode_encode_of_wellFormed h)

/-- Settles O2: the word's value gives both, and ARG has 24 bits. -/
theorem encodeOfDecodeIsIdentity : Obligations.EncodeOfDecodeIsIdentity := by
  unfold Obligations.EncodeOfDecodeIsIdentity
  intro w i h
  have hword := (decode_eq_command_iff w i).1 h
  have hwf : i.wellFormed = true := (wellFormed_iff i).2 (by have := w.isLt; omega)
  exact ⟨hwf, BitVec.eq_of_toNat_eq ((encode_toNat hwf).trans hword.symm)⟩

/-! ### Illegal words (R79, R80) -/

/-- Settles O3: the opcode match on the fields of the word. -/
theorem illegalWordsAreExactlyTheReservedOnes : Obligations.IllegalWordsAreExactlyTheReservedOnes := by
  unfold Obligations.IllegalWordsAreExactlyTheReservedOnes
  intro w
  rw [← opField_toNat, ← argField_eq_div]
  exact decodeFields_illegal_iff (opField w) (argField w)

theorem execute_of_illegal {w : Word} {s : State} (hf : s.fault = false) (hd : ∃ why, decode w = .illegal why) :
    execute w s = .next { s with fault := true, faultCode := 1 } := by
  obtain ⟨why, hd⟩ := hd
  calc execute w s = .next (raiseFault .illegalCmd s) := by simp [execute, hf, hd]
    _ = .next { s with fault := true, faultCode := 1 } := by rw [raiseFault_of_no_fault _ hf]; rfl

/-- Settles O4. -/
theorem reservedOpcodeRaisesIllegalCmd : Obligations.ReservedOpcodeRaisesIllegalCmd := by
  unfold Obligations.ReservedOpcodeRaisesIllegalCmd
  exact fun w s hf hop => execute_of_illegal hf ((illegalWordsAreExactlyTheReservedOnes w).2 (.inl hop))

/-- Settles O5. -/
theorem nonzeroArgRaisesIllegalCmd : Obligations.NonzeroArgRaisesIllegalCmd := by
  unfold Obligations.NonzeroArgRaisesIllegalCmd
  exact fun w s hf hop harg => execute_of_illegal hf ((illegalWordsAreExactlyTheReservedOnes w).2 (.inr ⟨hop, harg⟩))

/-- Settles O6: each word is its command's operand and opcode. -/
theorem spelledOutWordsDecode : Obligations.SpelledOutWordsDecode := by
  unfold Obligations.SpelledOutWordsDecode
  simp only [decode_eq_command_iff]
  decide

/-! ### The assembler (R83) -/

/-- The assembler's words are those of the well-formed commands. -/
theorem assemble_eq_some_iff {m : Mnemonic} {operand : Option Nat} {w : Word} : assemble m operand = some w ↔
    ∃ i, m.command operand = some i ∧ i.wellFormed = true ∧ encode i = w := by
  unfold assemble
  cases m.command operand <;> simp

theorem assemble_eq_none_iff {m : Mnemonic} {operand : Option Nat} : assemble m operand = none ↔
    ∀ i, m.command operand = some i → i.wellFormed = false := by
  unfold assemble
  cases m.command operand <;> simp

/-- The command of a mnemonic with an operand has that operand. -/
theorem operand_of_mnemonic_command {m : Mnemonic} {v : Nat} {i : Instr} (h : m.command (some v) = some i) :
    i.operand = v := by
  cases m <;> cases h <;> rfl

/-- A legal line assembles to `(operand << 8) | OP` of its command. -/
theorem assemble_of_command {m : Mnemonic} {operand : Option Nat} {i : Instr} (h : m.command operand = some i)
    (hi : i.wellFormed = true) :
    ∃ w, assemble m operand = some w ∧ w.toNat = i.operand * 256 + i.opcode.toNat ∧ decode w = .command i :=
  ⟨encode i, assemble_eq_some_iff.2 ⟨i, h, hi, rfl⟩, encode_toNat hi, decode_encode_of_wellFormed hi⟩

theorem command_of_assemble {m : Mnemonic} {operand : Option Nat} {w : Word} (h : assemble m operand = some w) :
    ∃ i, m.command operand = some i ∧ decode w = .command i ∧ w.toNat = i.operand * 256 + i.opcode.toNat := by
  obtain ⟨i, hcommand, hi, rfl⟩ := assemble_eq_some_iff.1 h
  exact ⟨i, hcommand, decode_encode_of_wellFormed hi, encode_toNat hi⟩

theorem assemble_long_operand (m : Mnemonic) {v : Nat} (h : 16777215 < v) : assemble m (some v) = none := by
  refine assemble_eq_none_iff.2 fun i hcommand => ?_
  have hoperand := operand_of_mnemonic_command hcommand
  rw [← Bool.not_eq_true, wellFormed_iff]
  omega

theorem assemble_needless_operand {m : Mnemonic} (v : Nat)
    (h : m ∈ [Mnemonic.NOP, .ENABLE, .DISABLE, .PAUSE, .RESUME, .RESET, .AUX_CLEAR]) : assemble m (some v) = none := by
  have hcommand : m.command (some v) = none := by
    simp only [List.mem_cons, List.not_mem_nil, or_false] at h
    obtain rfl | rfl | rfl | rfl | rfl | rfl | rfl := h <;> rfl
  exact assemble_eq_none_iff.2 (by simp [hcommand])

/-- Settles O7: `assemble_of_command` for the mnemonics with an operand, the words of the others, and the rejections. -/
theorem assembledWordIsTheCommand : Obligations.AssembledWordIsTheCommand := by
  unfold Obligations.AssembledWordIsTheCommand
  refine ⟨fun v hv => ?operands, by decide, by decide, by decide, by decide, by decide, by decide, by decide,
    fun m operand w => command_of_assemble, fun m v => assemble_long_operand m,
    fun m v => assemble_needless_operand v, by decide⟩
  case operands =>
    have hfits : operandFits v = true := decide_eq_true hv
    exact ⟨assemble_of_command (i := .setFps v) rfl hfits, assemble_of_command (i := .mix v) rfl hfits,
      assemble_of_command (i := .push v) rfl hfits, assemble_of_command (i := .tick v) rfl hfits,
      assemble_of_command (i := .auxLoad v) rfl hfits⟩

/-! ### The sample pseudo-instructions (R54, R84, R85) -/

/-- The step of a host write within the window (R59, R84). -/
theorem step_write {s : State} {rest : List HostEvent} {n off : Nat} {v : Word} (hc : configWf s.cfg = true)
    (hlt : off < 0x1000000) (hp : s.pending = hostWrite s.cfg n off v :: rest) :
    step s = memWrite n off v { s with pending := rest } := by
  calc step s = busWrite n (s.cfg.base + off) v { s with pending := rest } := step_of_pending hc hp
    _ = memWrite n off v { s with pending := rest } := by simp only [busWrite, busOffset_add s.cfg hlt]

/-- A 16-bit write stores the two bytes of the sample, the low one first (R54). -/
theorem byteOf_sample (x : Sample) :
    byteOf (x.setWidth 32) 0 = loByte x ∧ byteOf (x.setWidth 32) 1 = hiByte x := by
  constructor
  · apply BitVec.eq_of_getLsbD_eq
    intro i hi
    simp [byteOf, loByte, hi, show i < 32 by omega]
  · apply BitVec.eq_of_getLsbD_eq
    intro i hi
    simp [byteOf, hiByte, hi, show 8 + i < 32 by omega]

/-- Element `k` after a 16-bit store of a sample at its offset. -/
theorem elemAt_store_sample (s : State) (base k : Nat) (x : Sample) :
    elemAt (s.store (base + 2 * k) ((List.range 2).map (byteOf (x.setWidth 32)))) base k = x := by
  obtain ⟨hlo, hhi⟩ := byteOf_sample x
  have hbyte {j : Nat} (hj : j < 2) := byteAt_store_word s (base + 2 * k) 2 (x.setWidth 32) hj
  have hfirst := hbyte (j := 0) (by decide)
  rw [Nat.add_zero] at hfirst
  rw [elemAt, hbyte (j := 1) (by decide), hfirst, hlo, hhi, hiByte_append_loByte]

/-- The live parts of the windows the host writes end within their rows (R11). -/
theorem inRow_of_data {s : State} {r : Region} {k : Nat} (hc : configWf s.cfg = true)
    (hr : r = .pcmIn ∨ r = .synthIn ∨ r = .auxRam) (hlive : 2 * k + 2 ≤ liveSize s r) :
    InRow r (regionBase r + 2 * k) := by
  have hstream := streamMax_le hc
  have haux := auxMax_le hc
  obtain rfl | rfl | rfl := hr <;>
    simp only [InRow, regionBase, liveSize, pcmBase, synthBase, auxBase] at hlive ⊢ <;> omega

/-- The step of a 16-bit write to a live element of PCM_IN, SYNTH_IN or AUX_RAM stores it and changes no other byte. -/
theorem step_write_elem {s : State} {rest : List HostEvent} {r : Region} {k : Nat} {x : Sample}
    (hc : configWf s.cfg = true) (hr : r = .pcmIn ∨ r = .synthIn ∨ r = .auxRam)
    (hp : s.pending = hostWrite s.cfg 2 (regionBase r + 2 * k) (x.setWidth 32) :: rest)
    (hlive : 2 * k + 2 ≤ liveSize s r) :
    ∃ t, step s = .next t ∧ elemAt t (regionBase r) k = x ∧ t = { s with mem := t.mem, pending := rest } ∧
      sameOutside (regionBase r + 2 * k) 2 s t := by
  have hrow := inRow_of_data hc hr hlive
  have hregion := region_of_inRow hrow
  have heven : regionBase r % 2 = 0 := by cases r <;> rfl
  have hwindow : regionBase r + 2 * k < 0x1000000 := by
    obtain rfl | rfl | rfl := hr <;> simp only [InRow] at hrow <;> omega
  have hregs : r ≠ .regs := by obtain rfl | rfl | rfl := hr <;> decide
  have hok : accessOk s (regionBase r + 2 * k) 2 = true :=
    accessOk_of_row hrow (by decide) (by omega) (by omega) fun h => absurd h hregs
  have hok' : accessOk { s with pending := rest } (regionBase r + 2 * k) 2 = true :=
    (accessOk_congr rfl rfl _ 2).trans hok
  refine ⟨_, (step_write hc hwindow hp).trans (memWrite_data _ hok' (by rwa [hregion])),
    elemAt_store_sample _ _ k x, rfl, sameOutside_store_word { s with pending := rest } _ 2 _⟩

/-- Settles O51: `step_write_elem` in each of the three windows. -/
theorem samplePseudosStoreTheElement : Obligations.SamplePseudosStoreTheElement := by
  unfold Obligations.SamplePseudosStoreTheElement
  intro s k x rest hc
  refine ⟨fun hp hk => step_write_elem (r := .pcmIn) hc (by decide) hp ?pcm,
    fun hp hk => step_write_elem (r := .synthIn) hc (by decide) hp ?syn,
    fun hp hk => step_write_elem (r := .auxRam) hc (by decide) hp ?aux⟩
  all_goals
    simp only [liveSize]
    omega

end Sys2Proof.Machine

/-! ### The Mix Stage (spec/40_mix_stage.md R90 to R97) -/

namespace Sys2Proof.Machine

open Sys2Proof

/-! ### MIX by the outcome of its checks -/

/-- An active MIX that fits completes (R90). -/
theorem exec_mix_of_fits {n : Nat} {s : State} (ha : active s = true) (hs : s.cfgStale = false)
    (hn : n ≤ mixLen s.cfg s.fps) : exec (.mix n) s = .next (mixBody n s) := by
  simpa [exec, ha, hs, hn, Nat.not_lt.2 hn] using execMix_cases n s

/-- An active MIX that leaves no fault recorded has passed its checks, since a raise leaves FAULT set (R146). -/
theorem eq_mixBody_of_no_fault {n : Nat} {s t : State} (ha : active s = true) (hf : t.fault = false)
    (h : exec (.mix n) s = .next t) : t = mixBody n s := by
  change execMix n s = .next t at h
  obtain ⟨hidle, _⟩ | ⟨_, _, hraise⟩ | ⟨_, _, _, hraise⟩ | ⟨_, _, _, hmix⟩ := execMix_cases n s
  · simp [ha] at hidle
  · cases hraise.symm.trans h
    simp at hf
  · cases hraise.symm.trans h
    simp at hf
  · cases hmix.symm.trans h
    rfl

/-! ### Faults in order (R147) -/

/-- Settles O27: the branch each premise leaves of the three commands' checks. -/
theorem audioFaultsInOrder : Obligations.AudioFaultsInOrder := by
  unfold Obligations.AudioFaultsInOrder
  intro n s he hp
  have ha : active s = true := (active_iff s).2 ⟨he, hp⟩
  have hchecks := And.intro (execMix_cases n s) (And.intro (execPush_cases n s) (execTick_cases n s))
  refine ⟨fun hs => ?stale, fun hs hlong => ?tooLong, fun hs hfits hover => ?overrun⟩
  case stale => simpa [exec, ha, hs] using hchecks
  case tooLong => simpa [exec, ha, hs, hlong, Nat.not_le.2 hlong] using hchecks
  case overrun =>
    simpa [exec, ha, hs, hfits, Nat.not_lt.2 hfits, hover, Nat.not_le.2 hover] using hchecks.2

/-! ### What the elements and the cursor become -/

/-- Settles O32. -/
theorem mixStoresTheClippedSums : Obligations.MixStoresTheClippedSums := by
  unfold Obligations.MixStoresTheClippedSums
  intro n s ha hs hn hpos
  exact ⟨mixBody n s, exec_mix_of_fits ha hs hn, mixBody_frame n s, fun i hi => mixAt_mixBody n s i hi hpos,
    auxPos_mixBody n s hpos, byteAt_mixBody n s⟩

/-- The placeholder contributes no aux term (R95). -/
theorem mixedValue_of_auxEmpty {s : State} (h : s.auxEmpty = true) (i : Nat) :
    mixedValue s i = clipInt s.cfg.clipMode ((pcmAt s i).toInt + (synthAt s i).toInt) := by
  simp [mixedValue, auxContribution, h]

/-- Settles O33: the mix keeps `Inv`, which holds the placeholder's cursor at 0. -/
theorem placeholderIsSilent : Obligations.PlaceholderIsSilent := by
  unfold Obligations.PlaceholderIsSilent
  intro n s hinv hempty ha hs hn
  refine ⟨mixBody n s, exec_mix_of_fits ha hs hn, ((inv_mixBody hinv n).placeholder hempty).2, fun i hi => ?_⟩
  rw [mixAt_mixBody n s i hi hinv.auxCursor, mixedValue_of_auxEmpty hempty]

/-- The four inputs of an element (R96). -/
theorem mixedValue_eq (s : State) (i : Nat) : mixedValue s i = clipInt s.cfg.clipMode
    ((auxTerm s ((s.auxPos.toNat + i) % s.auxLen.toNat)).toInt + (pcmAt s i).toInt + (synthAt s i).toInt) := by
  rw [mixedValue, toInt_auxTerm]

/-- Settles O34: both elements are the value of the same four inputs. -/
theorem mixIsElementwise : Obligations.MixIsElementwise := by
  unfold Obligations.MixIsElementwise
  intro n m i s₁ s₂ t₁ t₂ hn hm ha₁ ha₂ hf₁ hf₂ hpos₁ hpos₂ hmode hpcm hsynth haux h₁ h₂
  obtain rfl := eq_mixBody_of_no_fault ha₁ hf₁ h₁
  obtain rfl := eq_mixBody_of_no_fault ha₂ hf₂ h₂
  apply BitVec.eq_of_toInt_eq
  calc (mixAt (mixBody n s₁) i).toInt
      = mixedValue s₁ i := mixAt_mixBody n s₁ i hn hpos₁
    _ = mixedValue s₂ i := by rw [mixedValue_eq, mixedValue_eq, hmode, hpcm, hsynth, haux]
    _ = (mixAt (mixBody m s₂) i).toInt := (mixAt_mixBody m s₂ i hm hpos₂).symm

/-! ### Runs of MIX commands (R93, R97) -/

theorem runCommands_cons_of_next {i : Instr} {is : List Instr} {s t : State} (h : exec i s = .next t) :
    runCommands (i :: is) s = runCommands is t := by
  simp [runCommands, h]

theorem sameOutside_trans {lo n : Nat} {s t u : State} (hst : sameOutside lo n s t) (htu : sameOutside lo n t u) :
    sameOutside lo n s u :=
  fun a ha => (htu a ha).trans (hst a ha)

theorem sameOutside_mono {lo m n : Nat} {s t : State} (hle : m ≤ n) (h : sameOutside lo m s t) :
    sameOutside lo n s t :=
  fun a ha => h a (by omega)

/-- A run of fitting MIX commands completes, moves the cursor by the sum of the lengths and writes the live Mix Buffer
alone. -/
theorem runCommands_mixes (ns : List Nat) {s : State} (ha : active s = true) (hs : s.cfgStale = false)
    (hfits : ∀ n ∈ ns, n ≤ mixLen s.cfg s.fps) (hpos : s.auxPos.toNat < s.auxLen.toNat) :
    ∃ t, runCommands (ns.map .mix) s = .next t ∧ t = { s with mem := t.mem, auxPos := t.auxPos } ∧
      t.auxPos.toNat = (s.auxPos.toNat + ns.sum) % s.auxLen.toNat ∧
      sameOutside mixBase (2 * mixLen s.cfg s.fps) s t := by
  induction ns generalizing s with
  | nil => exact ⟨s, rfl, rfl, (Nat.mod_eq_of_lt hpos).symm, fun _ _ => rfl⟩
  | cons n ns ih =>
    obtain ⟨hn, hns⟩ := List.forall_mem_cons.1 hfits
    have hcursor := auxPos_mixBody n s hpos
    have hpos' : (mixBody n s).auxPos.toNat < (mixBody n s).auxLen.toNat :=
      hcursor ▸ Nat.mod_lt _ (Nat.zero_lt_of_lt hpos)
    -- The mix keeps the premises: activity, staleness, the rate and the clip's length are as they were.
    obtain ⟨t, hrun, hframe, hsum, hbytes⟩ := ih (s := mixBody n s) ha hs hns hpos'
    refine ⟨t, (runCommands_cons_of_next (exec_mix_of_fits ha hs hn)).trans hrun, hframe, ?_,
      sameOutside_trans (sameOutside_mono (by omega) (byteAt_mixBody n s)) hbytes⟩
    rw [hsum, hcursor, mixBody_auxLen, Nat.mod_add_mod, List.sum_cons, Nat.add_assoc]

/-- Settles O35: `runCommands_mixes`; a whole turn of the clip is 0 modulo its length. -/
theorem auxCursorLoopsAcrossMixes : Obligations.AuxCursorLoopsAcrossMixes := by
  unfold Obligations.AuxCursorLoopsAcrossMixes
  intro ns s ha hs hfits hpos
  obtain ⟨t, hrun, hframe, hsum, hbytes⟩ := runCommands_mixes ns ha hs hfits hpos
  refine ⟨t, hrun, hframe, hsum, fun hturn => BitVec.eq_of_toNat_eq ?_, hbytes⟩
  rw [hsum, hturn, Nat.add_mod_right, Nat.mod_eq_of_lt hpos]

end Sys2Proof.Machine

/-! ### The Delivery Ring (spec/41_delivery_ring.md R100 to R111) -/

namespace Sys2Proof.Machine

open Sys2Proof

/-! ### RESET (R100) -/

/-- RESET runs wherever the block is enabled. -/
theorem exec_reset_of_enabled {s : State} (he : s.enabled = true) : exec .reset s = .next (ringReset s) := by
  simp [exec, execReset, he]

theorem ringCleared_ringReset {s : State} (hc : configWf s.cfg = true) : ringCleared s (ringReset s) where
  frame := rfl
  rcur := rfl
  wcur := by
    have hle := offset_le_cap hc s.fps
    have hcap := cap_le hc s.fps
    exact Nat.mod_eq_of_lt (by omega)
  valid := rfl
  fresh := rfl
  ring := fun b hb => by rw [ringAt, byteAt_ringReset, if_pos (by omega)]
  mixbuf := fun k hk => elemAt_zeroed (s.store ringBase (List.replicate (cap s.cfg s.fps) 0)) mixBase _ k hk
  others := fun a hring hmix => by rw [byteAt_ringReset, if_neg (by omega)]

/-- Settles O36. -/
theorem resetClearsTheRing : Obligations.ResetClearsTheRing := by
  unfold Obligations.ResetClearsTheRing
  intro s hc he
  exact ⟨ringReset s, exec_reset_of_enabled he, ringCleared_ringReset hc⟩

/-! ### PUSH and TICK by the outcome of their checks -/

/-- An active PUSH that fits completes (R101). -/
theorem exec_push_of_fits {n : Nat} {s : State} (ha : active s = true) (hs : s.cfgStale = false)
    (hn : n ≤ mixLen s.cfg s.fps) (hcap : 2 * n ≤ cap s.cfg s.fps) : exec (.push n) s = .next (pushBody n s) := by
  simpa [exec, ha, hs, hn, hcap, Nat.not_lt.2 hn, Nat.not_lt.2 hcap] using execPush_cases n s

/-- An active TICK that fits mixes and then pushes (R137). -/
theorem exec_tick_of_fits {n : Nat} {s : State} (ha : active s = true) (hs : s.cfgStale = false)
    (hn : n ≤ mixLen s.cfg s.fps) (hcap : 2 * n ≤ cap s.cfg s.fps) :
    exec (.tick n) s = .next (pushBody n (mixBody n s)) := by
  simpa [exec, ha, hs, hn, hcap, Nat.not_lt.2 hn, Nat.not_lt.2 hcap] using execTick_cases n s

/-! ### What a push leaves in the Mix Buffer and delivers (R101, R105) -/

/-- MIXBUF's window ends where RING's begins (R51). -/
theorem mixBase_add_window : mixBase + 65536 = ringBase := rfl

/-- A push writes no byte below RING. -/
theorem byteAt_pushBody_below {n : Nat} {s : State} (hc : configWf s.cfg = true) (hcap : 2 * n ≤ cap s.cfg s.fps)
    {a : Nat} (ha : a < ringBase) : byteAt (pushBody n s) a = byteAt s a :=
  byteAt_advanceRing_outside hc hcap a (.inl ha)

/-- The bytes a push copies are still the Mix Buffer's after it. -/
theorem mixBytes_pushBody {n : Nat} {s : State} (hc : configWf s.cfg = true) (hn : n ≤ mixLen s.cfg s.fps)
    (hcap : 2 * n ≤ cap s.cfg s.fps) : mixBytes (pushBody n s) (2 * n) = mixBytes s (2 * n) := by
  have hmax := mixLen_le hc s.fps
  have hwindow := mixBase_add_window
  refine List.map_congr_left fun j hj => byteAt_pushBody_below hc hcap ?_
  rw [List.mem_range] at hj
  omega

/-- A push delivers the live Mix Buffer, which its copy into RING leaves as it was. -/
theorem pushBody_sink {n : Nat} {s : State} (hc : configWf s.cfg = true) (hcap : 2 * n ≤ cap s.cfg s.fps) :
    (pushBody n s).sink =
      s.sink ++ [⟨frames s.cfg s.fps, (List.range (2 * frames s.cfg s.fps)).map (mixAt s)⟩] := by
  have hmax := mixLen_le hc s.fps
  rw [mixLen_eq] at hmax
  have hwindow := mixBase_add_window
  have hblock : (List.range (2 * frames s.cfg s.fps)).map (mixAt (advanceRing (2 * n) s)) =
      (List.range (2 * frames s.cfg s.fps)).map (mixAt s) := by
    refine List.map_congr_left fun k hk => ?_
    rw [List.mem_range] at hk
    exact elemAt_congr (byteAt_advanceRing_outside hc hcap _ (.inl (by omega)))
      (byteAt_advanceRing_outside hc hcap _ (.inl (by omega)))
  exact congrArg (fun block => s.sink ++ [⟨frames s.cfg s.fps, block⟩]) hblock

/-! ### The cursors of a push (R103, R104, R109) -/

/-- The drift correction takes a whole turn from the write cursor, so its place in RING is the advanced one. -/
theorem advanceRing_wcur_mod {s : State} {bw : Nat} (hc : configWf s.cfg = true) (hbw : bw ≤ cap s.cfg s.fps)
    (hr : s.rcur.toNat ≤ cap s.cfg s.fps) (hw : s.wcur.toNat = s.rcur.toNat + offset s.cfg s.fps) :
    (advanceRing bw s).wcur.toNat % cap s.cfg s.fps = (s.wcur.toNat + bw) % cap s.cfg s.fps := by
  obtain ⟨hr', hw'⟩ := advanceRing_cursors hc hbw hr hw
  split at hr'
  case isTrue hturn =>
    have hsum : s.wcur.toNat + bw = (advanceRing bw s).wcur.toNat + cap s.cfg s.fps := by omega
    rw [hsum, Nat.add_mod_right]
  case isFalse => rw [hw', hr', hw, Nat.add_right_comm]

/-- Settles O37: the laws of `advanceRing` at `2 * n` bytes, and the event by `pushBody_sink`. -/
theorem pushCopiesAndDelivers : Obligations.PushCopiesAndDelivers := by
  unfold Obligations.PushCopiesAndDelivers
  intro n s hinv ha hs hn hcap
  obtain ⟨hw, hr⟩ := cursors_of_active hinv ha hs
  obtain ⟨hr', hw'⟩ := advanceRing_cursors hinv.config hcap hr hw
  have hring := ringAt_advanceRing hinv.config hcap
  refine ⟨pushBody n s, exec_push_of_fits ha hs hn hcap, pushBody_frame n s, hr', ?difference,
    advanceRing_wcur_mod hinv.config hcap hr hw, fun k hk => ⟨?low, ?high⟩,
    byteAt_advanceRing_other hinv.config hcap, pushBody_sink hinv.config hcap⟩
  case difference =>
    change ((advanceRing (2 * n) s).wcur.toNat : Int) - (advanceRing (2 * n) s).rcur.toNat = _
    omega
  case low => exact (hring (2 * k) (by omega)).trans (loByte_elemAt s mixBase k).symm
  case high => exact (hring (2 * k + 1) (by omega)).trans (hiByte_elemAt s mixBase k).symm

/-- Settles O25: the push of the mixed state; the mix leaves the cursors, RING and the elements from `n` on. -/
theorem tickDeliversTheMixedBlock : Obligations.TickDeliversTheMixedBlock := by
  unfold Obligations.TickDeliversTheMixedBlock
  intro n s hinv ha hs hn hcap
  have hmix := byteAt_mixBody n s
  refine ⟨pushBody n (mixBody n s), (List.range (2 * frames s.cfg s.fps)).map (mixAt (mixBody n s)),
    exec_tick_of_fits ha hs hn hcap, rfl, pushBody_sink (s := mixBody n s) hinv.config hcap, by simp,
    fun i h hi => ?mixed, fun i h hi => ?older, auxPos_mixBody n s hinv.auxCursor, fun a hout hring => ?others⟩
  case mixed =>
    rw [List.getElem_map, List.getElem_range]
    exact mixAt_mixBody n s i hi hinv.auxCursor
  case older =>
    rw [List.getElem_map, List.getElem_range]
    exact elemAt_congr (hmix _ (by omega)) (hmix _ (by omega))
  case others => exact (byteAt_advanceRing_other (s := mixBody n s) hinv.config hcap a hring).trans (hmix a hout)

/-! ### The closed form of the read cursor (R110) -/

/-- The read cursor after `bytes` bytes since a RESET. -/
def cursorAfter (cp bytes : Nat) : Nat := if bytes = 0 then 0 else (bytes - 1) % cp + 1

/-- Advancing the closed form by at most a whole ring is the advance and the one drift correction of R103 and R104. -/
theorem cursorAfter_add {cp b n : Nat} (hcp : 1 ≤ cp) (hn : n ≤ cp) : cursorAfter cp (b + n) =
    if cp < cursorAfter cp b + n then cursorAfter cp b + n - cp else cursorAfter cp b + n := by
  cases b with
  | zero =>
    cases n with
    | zero => simp [cursorAfter]
    | succ n => simp [cursorAfter, Nat.mod_eq_of_lt hn, Nat.not_lt.2 hn]
  | succ b =>
    have hindex := ringIndex (wc := b) hcp hn
    have hcursor : cursorAfter cp (b + 1) = b % cp + 1 := rfl
    have hnext : cursorAfter cp (b + 1 + n) = (b + n) % cp + 1 := by
      rw [Nat.add_right_comm b 1 n]
      rfl
    rw [hcursor, hnext, hindex]
    split <;> split <;> omega

theorem cursorAfter_mod (cp b : Nat) : cursorAfter cp b % cp = b % cp := by
  cases b with
  | zero => rfl
  | succ b => exact Nat.mod_add_mod b cp 1

/-! ### The ring's content (R107) -/

/-- Bytes copied to the places that follow the stream's are the stream's next bytes: the copy is the last writer where
it writes, and elsewhere the last writer is the older stream's. -/
theorem ringHolds_pushBody {n : Nat} {s : State} {old : List Byte} (hc : configWf s.cfg = true)
    (hcap : 2 * n ≤ cap s.cfg s.fps)
    (hw : s.wcur.toNat % cap s.cfg s.fps = (offset s.cfg s.fps + old.length) % cap s.cfg s.fps)
    (h : ringHolds s old) : ringHolds (pushBody n s) (old ++ mixBytes s (2 * n)) := by
  have hplace (j : Nat) : (s.wcur.toNat + j) % cap s.cfg s.fps =
      (offset s.cfg s.fps + (old.length + j)) % cap s.cfg s.fps := by
    rw [← Nat.mod_add_mod, hw, Nat.mod_add_mod, Nat.add_assoc]
  have hlen : (old ++ mixBytes s (2 * n)).length = old.length + 2 * n := by simp
  have hkept {p : Nat} (hp : ∀ j, j < 2 * n →
      (offset s.cfg s.fps + (old.length + j)) % cap s.cfg s.fps ≠ p) : ringAt (pushBody n s) p = ringAt s p :=
    byteAt_advanceRing_other hc hcap _ fun j hj heq => hp j hj (by rw [← hplace]; omega)
  intro p hp
  obtain ⟨hlast, hnone⟩ := h p hp
  refine ⟨fun t ht hpt hlater => ?_, fun hunwritten => ?_⟩
  · by_cases htold : t < old.length
    · rw [List.getElem_append_left htold, hkept fun j hj => hlater _ (by omega) (by omega)]
      exact hlast t htold hpt fun u htu hu => hlater u htu (by omega)
    · obtain ⟨j, rfl⟩ := Nat.exists_eq_add_of_le (Nat.not_lt.1 htold)
      have hcopied := ringAt_advanceRing (s := s) hc hcap j (by omega)
      rw [hplace] at hcopied
      rw [List.getElem_append_right (by omega), mixBytes_getElem, Nat.add_sub_cancel_left, ← hcopied, ← hpt]
      rfl
  · rw [hkept fun j hj => hunwritten _ (by omega)]
    exact hnone fun t ht => hunwritten t (by omega)

/-- A mix writes no byte of RING. -/
theorem ringAt_mixBody {n : Nat} {s : State} (hc : configWf s.cfg = true) (hn : n ≤ mixLen s.cfg s.fps) (p : Nat) :
    ringAt (mixBody n s) p = ringAt s p := by
  have hmax := mixLen_le hc s.fps
  have hwindow := mixBase_add_window
  exact byteAt_mixBody n s _ (by omega)

/-! ### Runs of audio commands since a RESET -/

/-- `s` is a state since the RESET of `r` at which `bytes` have been copied into RING. -/
structure RingSince (r : State) (bytes : List Byte) (s : State) : Prop where
  inv : Inv s
  isActive : active s = true
  fresh : s.cfgStale = false
  cfg : s.cfg = r.cfg
  fps : s.fps = r.fps
  rcur : s.rcur.toNat = cursorAfter (cap s.cfg s.fps) bytes.length
  ring : ringHolds s bytes

theorem RingSince.of_reset {r : State} (hinv : Inv r) (ha : active r = true) :
    RingSince r [] (ringReset r) where
  inv := inv_ringReset hinv ((active_iff r).1 ha).1 r.paused
  isActive := ha
  fresh := rfl
  cfg := rfl
  fps := rfl
  rcur := rfl
  ring := fun p hp => ⟨nofun, fun _ => (ringCleared_ringReset hinv.config).ring p hp⟩

/-- The write cursor is OFFSET above the read cursor. -/
theorem RingSince.wcur {r s : State} {bytes : List Byte} (h : RingSince r bytes s) :
    s.wcur.toNat = s.rcur.toNat + offset s.cfg s.fps ∧ s.rcur.toNat ≤ cap s.cfg s.fps :=
  cursors_of_active h.inv h.isActive h.fresh

/-- The place in RING of the next byte (R110). -/
theorem RingSince.wcur_mod {r s : State} {bytes : List Byte} (h : RingSince r bytes s) :
    s.wcur.toNat % cap s.cfg s.fps = (offset s.cfg s.fps + bytes.length) % cap s.cfg s.fps := by
  rw [h.wcur.1, h.rcur, ← Nat.mod_add_mod, cursorAfter_mod, Nat.mod_add_mod, Nat.add_comm]

theorem RingSince.mix {r s : State} {bytes : List Byte} (h : RingSince r bytes s) {n : Nat}
    (hn : n ≤ mixLen s.cfg s.fps) : RingSince r bytes (mixBody n s) where
  inv := inv_mixBody h.inv n
  isActive := h.isActive
  fresh := h.fresh
  cfg := h.cfg
  fps := h.fps
  rcur := h.rcur
  ring := fun p hp => by
    rw [ringAt_mixBody h.inv.config hn]
    exact h.ring p hp

theorem RingSince.push {r s : State} {bytes : List Byte} (h : RingSince r bytes s) {n : Nat}
    (hcap : 2 * n ≤ cap s.cfg s.fps) : RingSince r (bytes ++ mixBytes s (2 * n)) (pushBody n s) where
  inv := inv_pushBody h.inv h.isActive h.fresh hcap
  isActive := h.isActive
  fresh := h.fresh
  cfg := h.cfg
  fps := h.fps
  rcur := by
    obtain ⟨hw, hr⟩ := h.wcur
    rw [List.length_append, mixBytes_length]
    simp only [pushBody_cfg, pushBody_fps]
    rw [cursorAfter_add (cap_pos h.inv.config _) hcap, ← h.rcur]
    exact (advanceRing_cursors h.inv.config hcap hr hw).1
  ring := ringHolds_pushBody h.inv.config hcap h.wcur_mod h.ring

/-- A fitting audio command completes, and the bytes it copies are those of the Mix Buffer it leaves. -/
theorem RingSince.command {r s : State} {bytes : List Byte} (h : RingSince r bytes s) {i : Instr}
    (hfits : audioFits r i) :
    ∃ t, exec i s = .next t ∧ RingSince r (bytes ++ mixBytes t (bytesCopied i)) t := by
  have hfits' : audioFits s i := by simpa only [audioFits, h.cfg, h.fps] using hfits
  cases i with
  | mix n =>
    refine ⟨_, exec_mix_of_fits h.isActive h.fresh hfits', ?_⟩
    simpa [bytesCopied, mixBytes] using h.mix hfits'
  | push n =>
    obtain ⟨hn, hcap⟩ := hfits'
    refine ⟨_, exec_push_of_fits h.isActive h.fresh hn hcap, ?_⟩
    rw [bytesCopied, mixBytes_pushBody h.inv.config hn hcap]
    exact h.push hcap
  | tick n =>
    obtain ⟨hn, hcap⟩ := hfits'
    have hmix := h.mix hn
    refine ⟨_, exec_tick_of_fits h.isActive h.fresh hn hcap, ?_⟩
    rw [bytesCopied, mixBytes_pushBody hmix.inv.config hn hcap]
    exact hmix.push hcap
  | nop | enable | disable | pause | resume | setFps | reset | auxLoad | auxClear => exact hfits.elim

theorem ringStream_cons_of_next {i : Instr} {is : List Instr} {s t : State} (h : exec i s = .next t) :
    ringStream (i :: is) s = mixBytes t (bytesCopied i) ++ ringStream is t := by
  simp [ringStream, h, mixBytes]

/-- A run of fitting audio commands completes, and it appends its stream. -/
theorem RingSince.run (is : List Instr) {r s : State} {bytes : List Byte} (h : RingSince r bytes s)
    (hfits : ∀ i ∈ is, audioFits r i) :
    ∃ t, runCommands is s = .next t ∧ RingSince r (bytes ++ ringStream is s) t ∧
      (ringStream is s).length = (is.map bytesCopied).sum := by
  induction is generalizing s bytes with
  | nil => exact ⟨s, rfl, by simpa [ringStream] using h, rfl⟩
  | cons i is ih =>
    obtain ⟨hi, his⟩ := List.forall_mem_cons.1 hfits
    obtain ⟨m, hexec, hm⟩ := h.command hi
    obtain ⟨t, hrun, ht, hlen⟩ := ih hm his
    rw [ringStream_cons_of_next hexec]
    refine ⟨t, (runCommands_cons_of_next hexec).trans hrun, by rwa [← List.append_assoc], ?_⟩
    rw [List.length_append, mixBytes_length, hlen, List.map_cons, List.sum_cons]

/-- RESET of an active block and a run of fitting audio commands complete, and RING follows the run's stream. -/
theorem ringSince_reset_run (is : List Instr) {r : State} (hinv : Inv r) (ha : active r = true)
    (hfits : ∀ i ∈ is, audioFits r i) :
    ∃ s t, exec .reset r = .next s ∧ runCommands is s = .next t ∧ RingSince r (ringStream is s) t ∧
      (ringStream is s).length = (is.map bytesCopied).sum := by
  obtain ⟨t, hrun, ht, hlen⟩ := (RingSince.of_reset hinv ha).run is hfits
  exact ⟨ringReset r, t, exec_reset_of_enabled ((active_iff r).1 ha).1, hrun, ht, hlen⟩

/-- Settles O38: the cursors of `RingSince` at the length of the run's stream. -/
theorem cursorsHaveAClosedForm : Obligations.CursorsHaveAClosedForm := by
  unfold Obligations.CursorsHaveAClosedForm
  intro is r hinv ha hfits
  obtain ⟨s, t, hreset, hrun, ht, hlen⟩ := ringSince_reset_run is hinv ha hfits
  rw [← hlen, ← ht.cfg, ← ht.fps]
  exact ⟨s, t, hreset, hrun, ht.rcur, ht.wcur.1, ht.wcur_mod⟩

/-- Settles O39: the content of `RingSince` for the run's stream. -/
theorem ringContentLaw : Obligations.RingContentLaw := by
  unfold Obligations.RingContentLaw
  intro is r hinv ha hfits
  obtain ⟨s, t, hreset, hrun, ht, _⟩ := ringSince_reset_run is hinv ha hfits
  exact ⟨s, t, hreset, hrun, ht.ring⟩

end Sys2Proof.Machine

/-! ### The Auxiliary Clip (spec/42_aux_clip.md R115 to R120) -/

namespace Sys2Proof.Machine

open Sys2Proof

/-! ### AUX_LOAD (R115, R116) -/

theorem exec_auxLoad_of_fails {l : Nat} {s : State} (h : l = 0 ∨ s.cfg.auxMax < l) :
    exec (.auxLoad l) s = .next { s with auxErr := true } := by
  obtain ⟨_, hexec⟩ | ⟨hl, hmax, _⟩ := execAuxLoad_cases l s
  · exact hexec
  · omega

theorem exec_auxLoad_of_fits {l : Nat} {s : State} (hl : 1 ≤ l) (hmax : l ≤ s.cfg.auxMax) :
    exec (.auxLoad l) s =
      .next { s with auxLen := BitVec.ofNat 32 l, auxPos := 0, auxEmpty := false, auxErr := false } := by
  obtain ⟨hfails, _⟩ | ⟨_, _, hexec⟩ := execAuxLoad_cases l s
  · omega
  · exact hexec

/-- A clip length that P_AUX_MAX allows fits AUX_LEN (R7, R34). -/
theorem toNat_auxLen_of_le {l : Nat} {c : Config} (hc : configWf c = true) (hmax : l ≤ c.auxMax) :
    (BitVec.ofNat 32 l).toNat = l := by
  have := auxMax_le hc
  exact Nat.mod_eq_of_lt (by omega)

/-- Settles O40: the two outcomes of a load. -/
theorem auxLoadCommitsALength : Obligations.AuxLoadCommitsALength := by
  unfold Obligations.AuxLoadCommitsALength
  intro l s hc
  exact ⟨exec_auxLoad_of_fails,
    fun hl hmax => ⟨_, exec_auxLoad_of_fits hl hmax, toNat_auxLen_of_le hc hmax, rfl⟩⟩

/-! ### AUX_CLEAR (R118, R119) -/

/-- What MIX stores while the clip is the placeholder: the clip of the two streams' sum (R90, R95). -/
theorem mixAt_mixBody_of_auxEmpty {n i : Nat} {s : State} (hempty : s.auxEmpty = true)
    (hpos : s.auxPos.toNat < s.auxLen.toNat) (hi : i < n) :
    (mixAt (mixBody n s) i).toInt = clipInt s.cfg.clipMode ((pcmAt s i).toInt + (synthAt s i).toInt) :=
  (mixAt_mixBody n s i hi hpos).trans (mixedValue_of_auxEmpty hempty i)

/-- Settles O41: the cleared clip is the placeholder with its cursor 0 below its length 1, and the rest of the state,
the two streams and the checks of MIX among it, is as it was. -/
theorem auxClearRestoresTheSilentClip : Obligations.AuxClearRestoresTheSilentClip := by
  unfold Obligations.AuxClearRestoresTheSilentClip
  intro s
  refine ⟨_, rfl, rfl, fun n ha hs hn => ⟨_, exec_mix_of_fits ha hs hn, fun i hi => ?_⟩⟩
  exact mixAt_mixBody_of_auxEmpty rfl Nat.zero_lt_one hi

/-! ### The clip and the other commands (R120) -/

/-- `t` has the clip's fields of `s`. -/
def SameClip (s t : State) : Prop :=
  t.auxLen = s.auxLen ∧ t.auxPos = s.auxPos ∧ t.auxEmpty = s.auxEmpty ∧ t.auxErr = s.auxErr

theorem sameClip_raiseFault (c : FaultCode) (s : State) : SameClip s (raiseFault c s) :=
  ⟨raiseFault_auxLen c s, raiseFault_auxPos c s, raiseFault_auxEmpty c s, raiseFault_auxErr c s⟩

theorem sameClip_ringReset (s : State) : SameClip s (ringReset s) :=
  ⟨ringReset_auxLen s, ringReset_auxPos s, ringReset_auxEmpty s, ringReset_auxErr s⟩

theorem sameClip_pushBody (n : Nat) (s : State) : SameClip s (pushBody n s) :=
  ⟨pushBody_auxLen n s, pushBody_auxPos n s, pushBody_auxEmpty n s, pushBody_auxErr n s⟩

/-- Settles O42: the arms of the other commands. -/
theorem clipIsIndependentOfTheLifecycle : Obligations.ClipIsIndependentOfTheLifecycle := by
  unfold Obligations.ClipIsIndependentOfTheLifecycle
  intro i s t hload hclear hmix htick h
  obtain rfl | ⟨c, rfl⟩ | ⟨_, rfl⟩ | ⟨_, rfl⟩ | ⟨_, _, rfl⟩ | ⟨_, _, rfl⟩ | ⟨_, _, rfl⟩ | ⟨_, _, _, _, rfl⟩ |
    ⟨_, _, _, _, rfl⟩ | ⟨n, hi, _⟩ | ⟨n, _, _, _, _, _, rfl⟩ | ⟨n, hi, _⟩ | ⟨l, hi, _⟩ | ⟨l, hi, _⟩ | ⟨hi, _⟩ :=
    exec_cases h
  · exact ⟨rfl, rfl, rfl, rfl⟩
  · exact sameClip_raiseFault c s
  · exact sameClip_ringReset _
  · exact ⟨rfl, rfl, rfl, rfl⟩
  · exact ⟨rfl, rfl, rfl, rfl⟩
  · exact sameClip_ringReset _
  · exact sameClip_ringReset s
  · exact ⟨rfl, rfl, rfl, rfl⟩
  · exact ⟨rfl, rfl, rfl, rfl⟩
  · exact absurd hi (hmix n)
  · exact sameClip_pushBody n s
  · exact absurd hi (htick n)
  · exact absurd hi (hload l)
  · exact absurd hi (hload l)
  · exact absurd hi hclear

end Sys2Proof.Machine

/-! ### The lifecycle (spec/43_lifecycle.md R125 to R138) -/

namespace Sys2Proof.Machine

open Sys2Proof

/-! ### The activity gate (R125) -/

theorem active_eq_false_iff (s : State) : active s = false ↔ s.enabled = false ∨ s.paused = true := by
  cases he : s.enabled <;> simp [active, he]

/-- MIX, PUSH and TICK stop at the gate, before any other check. -/
theorem exec_audio_of_inactive {s : State} (ha : active s = false) (n : Nat) :
    exec (.mix n) s = .next s ∧ exec (.push n) s = .next s ∧ exec (.tick n) s = .next s := by
  simpa [exec, ha] using And.intro (execMix_cases n s) (And.intro (execPush_cases n s) (execTick_cases n s))

theorem exec_reset_of_disabled {s : State} (he : s.enabled = false) : exec .reset s = .next s := by
  simp [exec, execReset, he]

/-- Settles O26. -/
theorem inactiveBlockDoesNothing : Obligations.InactiveBlockDoesNothing := by
  unfold Obligations.InactiveBlockDoesNothing
  exact fun s => ⟨fun hidle => exec_audio_of_inactive ((active_eq_false_iff s).2 hidle), exec_reset_of_disabled⟩

/-! ### NOP (R126) -/

/-- R148: a halted block ignores every word. -/
theorem execute_of_halted {s : State} (hf : s.fault = true) (w : Word) : execute w s = .next s := by
  simp [execute, hf]

/-- Settles O16: a word with NOP's opcode and a nonzero ARG is one of the illegal words of R80. -/
theorem nopChangesNothing : Obligations.NopChangesNothing := by
  unfold Obligations.NopChangesNothing
  refine ⟨fun _ => rfl, by decide, fun s w hf hop harg => ?illegal, fun s hf => execute_of_halted hf 0⟩
  case illegal =>
    have hmem : w.toNat % 256 ∈ [0, 1, 2, 3, 4, 6, 11] := by simp [hop]
    rw [raiseFault_of_no_fault _ hf]
    exact execute_of_illegal hf ((illegalWordsAreExactlyTheReservedOnes w).2 (.inr ⟨hmem, harg⟩))

/-! ### ENABLE and DISABLE (R127 to R130) -/

/-- Settles O17: ENABLE is RESET's body on the enabled, unpaused state, of the same configuration and rate. -/
theorem enableRestartsFromACleanRing : Obligations.EnableRestartsFromACleanRing := by
  unfold Obligations.EnableRestartsFromACleanRing
  exact fun s hc => ⟨ringReset { s with enabled := true, paused := false }, rfl, ringCleared_ringReset hc⟩

/-- Settles O18: the block DISABLE leaves is disabled, so the gate stops the four commands. -/
theorem disableSilencesTheBlock : Obligations.DisableSilencesTheBlock := by
  unfold Obligations.DisableSilencesTheBlock
  refine fun s => ⟨_, rfl, rfl, fun n => ?_⟩
  have hinactive := (active_eq_false_iff { s with
    enabled := false, paused := false, cfgStale := false, bufsValid := false }).2 (.inl rfl)
  obtain ⟨hmix, hpush, htick⟩ := exec_audio_of_inactive hinactive n
  exact ⟨hmix, hpush, htick, exec_reset_of_disabled rfl⟩

/-! ### PAUSE and RESUME (R131 to R133) -/

theorem exec_pause_of_enabled {s : State} (he : s.enabled = true) :
    exec .pause s = .next { s with paused := true } := by
  simp [exec, execPause, he]

theorem exec_pause_of_disabled {s : State} (he : s.enabled = false) : exec .pause s = .next s := by
  simp [exec, execPause, he]

theorem exec_resume_of_enabled {s : State} (he : s.enabled = true) :
    exec .resume s = .next (ringReset { s with paused := false }) := by
  simp [exec, execResume, he]

theorem exec_resume_of_disabled {s : State} (he : s.enabled = false) : exec .resume s = .next s := by
  simp [exec, execResume, he]

/-- Settles O19: by ENABLED; the gate stops MIX, PUSH and TICK of the paused state. -/
theorem pauseKeepsTheBuffers : Obligations.PauseKeepsTheBuffers := by
  unfold Obligations.PauseKeepsTheBuffers
  intro s
  obtain he | he := Bool.eq_false_or_eq_true s.enabled
  · have hinactive := (active_eq_false_iff { s with paused := true }).2 (.inr rfl)
    exact ⟨_, exec_pause_of_enabled he, fun _ => ⟨rfl, exec_audio_of_inactive hinactive⟩, by simp [he]⟩
  · exact ⟨s, exec_pause_of_disabled he, by simp [he], fun _ => rfl⟩

/-- Settles O20: by ENABLED; RESUME of an enabled block is RESET's body on the unpaused state. -/
theorem resumeRestartsTheRing : Obligations.ResumeRestartsTheRing := by
  unfold Obligations.ResumeRestartsTheRing
  exact fun s hc => ⟨fun he => ⟨_, exec_resume_of_enabled he, ringCleared_ringReset hc⟩, exec_resume_of_disabled⟩

/-! ### SET_FPS (R135) -/

/-- Settles O21: each premise fixes what `rateOf` finds, which leaves one case of `execSetFps_cases`. -/
theorem setFpsChangesTheRate : Obligations.SetFpsChangesTheRate := by
  unfold Obligations.SetFpsChangesTheRate
  intro v s
  have hcases := execSetFps_cases v s
  refine ⟨fun h30 h60 h120 => ?badRate, fun hv => ?current, fun f hv hne he => ?enabled, fun f hv hne he => ?disabled⟩
  case badRate => simpa [exec, rateOf_eq_none.2 ⟨h30, h60, h120⟩] using hcases
  case current => simpa [exec, rateOf_eq_some.2 hv] using hcases
  case enabled => simpa [exec, rateOf_eq_some.2 hv, hne, he] using hcases
  case disabled => simpa [exec, rateOf_eq_some.2 hv, hne, he] using hcases

/-! ### TICK (R137, R138) -/

/-- Settles O24: MIX leaves what PUSH's checks read (activity, staleness, the rate) as it was, so PUSH passes them on
the mixed state. -/
theorem tickIsMixThenPush : Obligations.TickIsMixThenPush := by
  unfold Obligations.TickIsMixThenPush
  exact fun n s ha hs hn hcap => ⟨mixBody n s, pushBody n (mixBody n s), exec_mix_of_fits ha hs hn,
    exec_push_of_fits (s := mixBody n s) ha hs hn hcap, exec_tick_of_fits ha hs hn hcap⟩

end Sys2Proof.Machine

/-! ### Faults, the halted block and the idle states (spec/60_exceptions.md R145 to R159) -/

namespace Sys2Proof.Machine

open Sys2Proof

/-! ### The halted block (R148) -/

/-- The block offset of `P_BASE` plus an offset is that offset, and it lies in the window (R50). -/
theorem busOffset_base_add_eq_some {c : Config} {off off' : Nat} (h : busOffset c (c.base + off) = some off') :
    off < 0x1000000 ∧ off' = off := by
  unfold busOffset windowSize at h
  split at h
  · cases h
    omega
  · cases h

/-- A step that takes a host write off the list is MemWrite at the offset written to (R59). -/
theorem memWrite_of_step_write {s t : State} {rest : List HostEvent} {n off : Nat} {v : Word}
    (hp : s.pending = hostWrite s.cfg n off v :: rest) (h : step s = .next t) :
    off < 0x1000000 ∧ memWrite n off v { s with pending := rest } = .next t := by
  obtain ⟨hc, _⟩ := step_cases h
  obtain ⟨off', hoff, hwrite⟩ := busWrite_next ((step_of_pending hc hp).symm.trans h)
  obtain ⟨hlt, rfl⟩ := busOffset_base_add_eq_some hoff
  exact ⟨hlt, hwrite⟩

/-- The windows that host writes change (R55). -/
theorem region_data_iff (off : Nat) : (region off = .pcmIn ∨ region off = .synthIn ∨ region off = .auxRam) ↔
    (0x010000 ≤ off ∧ off < 0x030000) ∨ (0x800000 ≤ off ∧ off < 0x1000000) := by
  simp only [region_eq_iff, InRow]
  omega

/-- Of a halted block a read changes the draw count alone: a BUS_ERROR would raise a second fault (R146). -/
theorem memRead_state_of_halted {s : State} (hf : s.fault = true) (n off : Nat) :
    (memRead n off s).2 = { s with anyCount := (memRead n off s).2.anyCount } := by
  obtain ⟨_, h⟩ | ⟨_, h | h⟩ := memRead_state n off s
  · rw [h, raiseFault_of_fault _ hf]
    rfl
  · rw [h]
  · rw [h]
    rfl

/-- Of a halted block a write that is no legal one to an input window changes nothing (R148). -/
theorem memWrite_of_halted {s : State} (hf : s.fault = true) {off n : Nat} (v : Word)
    (hdata : ¬(accessOk s off n = true ∧ (region off = .pcmIn ∨ region off = .synthIn ∨ region off = .auxRam))) :
    memWrite n off v s = .next s := by
  obtain ⟨_, h⟩ | ⟨_, _, _, h⟩ | ⟨_, _, h⟩ | ⟨hok, hr, _⟩ | ⟨_, h⟩ := memWrite_cases n off v s
  · rw [h, raiseFault_of_fault _ hf]
  · rw [h, execute_of_halted hf]
  · exact h
  · exact absurd ⟨hok, hr⟩ hdata
  · rw [h, raiseFault_of_fault _ hf]

/-- Settles O11: the writes by whether they are legal ones to an input window, which are stores (`memWrite_data`). -/
theorem haltedBlockKeepsItsState : Obligations.HaltedBlockKeepsItsState := by
  unfold Obligations.HaltedBlockKeepsItsState
  refine ⟨fun w s hf => execute_of_halted hf w, fun s t rest hf hstep =>
    ⟨fun n addr hp => ?read, fun n off v hp => ?write⟩⟩
  case read =>
    obtain ⟨hc, _⟩ := step_cases hstep
    obtain ⟨off, _, rfl⟩ := busRead_next ((step_of_pending hc hp).symm.trans hstep)
    rw [memRead_state_of_halted (s := { s with pending := rest }) hf n off]
    rfl
  case write =>
    obtain ⟨hlt, hwrite⟩ := memWrite_of_step_write hp hstep
    rw [← accessOk_congr (s := s) (t := { s with pending := rest }) rfl rfl off n]
    by_cases hdata : accessOk { s with pending := rest } off n = true ∧
        (region off = .pcmIn ∨ region off = .synthIn ∨ region off = .auxRam)
    · obtain ⟨hok, hr⟩ := hdata
      obtain rfl := Host.Outcome.next.inj ((memWrite_data v hok hr).symm.trans hwrite)
      refine ⟨rfl, sameOutside_store_word { s with pending := rest } off n v, fun hout => ?_,
        fun _ _ j hj => byteAt_store_word _ off n v hj⟩
      have hrow := (region_data_iff off).1 hr
      obtain hbad | hout := hout
      · exact absurd hok (by simp [hbad])
      · omega
    · have hignored := memWrite_of_halted (s := { s with pending := rest }) hf v hdata
      obtain rfl := Host.Outcome.next.inj (hignored.symm.trans hwrite)
      refine ⟨rfl, fun _ _ => rfl, fun _ => rfl, fun hok hin => ?_⟩
      exact absurd ⟨hok, (region_data_iff off).2 (by omega)⟩ hdata

/-! ### The first fault (R145, R146) -/

/-- Settles O28: `faultNumber` is the table of R145, code by code. -/
theorem firstFaultIsKept : Obligations.FirstFaultIsKept := by
  unfold Obligations.FirstFaultIsKept
  refine fun c s => ⟨fun hf => ?_, raiseFault_of_fault c⟩
  rw [raiseFault_of_no_fault c hf]
  cases c <;> rfl

/-! ### The idle states (R159) -/

/-- From `s` to `t` a disabled block is not enabled, and a paused one is not made active. -/
def StaysIdle (s t : State) : Prop := t.enabled = true → s.enabled = true ∧ (s.paused = true → t.paused = true)

theorem staysIdle_of_eq {s t : State} (henabled : t.enabled = s.enabled) (hpaused : t.paused = s.paused) :
    StaysIdle s t := fun h => ⟨henabled ▸ h, fun hp => hpaused ▸ hp⟩

/-- ENABLE and, of an enabled block, RESUME are the commands that can leave an idle state; of the others DISABLE and
PAUSE alone write ENABLED or PAUSED, and they only enter one. -/
theorem exec_staysIdle {i : Instr} {s t : State} (h : exec i s = .next t) :
    i = .enable ∨ (i = .resume ∧ s.enabled = true) ∨ StaysIdle s t := by
  obtain rfl | ⟨c, rfl⟩ | ⟨hi, _⟩ | ⟨_, rfl⟩ | ⟨_, he, rfl⟩ | ⟨hi, he, _⟩ | ⟨_, _, rfl⟩ | ⟨_, _, _, _, rfl⟩ |
    ⟨_, _, _, _, rfl⟩ | ⟨n, _, _, _, _, rfl⟩ | ⟨n, _, _, _, _, _, rfl⟩ | ⟨n, _, _, _, _, _, rfl⟩ | ⟨_, _, _, rfl⟩ |
    ⟨_, _, _, _, rfl⟩ | ⟨_, rfl⟩ := exec_cases h
  · exact .inr (.inr (staysIdle_of_eq rfl rfl))
  · exact .inr (.inr (staysIdle_of_eq (raiseFault_enabled c s) (raiseFault_paused c s)))
  · exact .inl hi
  · exact .inr (.inr nofun)
  · exact .inr (.inr fun _ => ⟨he, fun _ => rfl⟩)
  · exact .inr (.inl ⟨hi, he⟩)
  all_goals exact .inr (.inr (staysIdle_of_eq rfl rfl))

/-- Settles O31: each premise rules out what `exec_staysIdle` leaves besides the command it names. -/
theorem idleStatesAreLeftByTheirCommands : Obligations.IdleStatesAreLeftByTheirCommands := by
  unfold Obligations.IdleStatesAreLeftByTheirCommands
  intro i s t h
  obtain rfl | ⟨rfl, he⟩ | hidle := exec_staysIdle h
  · exact ⟨fun _ _ => rfl, fun _ _ _ => .inl rfl⟩
  · exact ⟨fun hdisabled => by simp [hdisabled] at he, fun _ _ _ => .inr rfl⟩
  · refine ⟨fun hdisabled henabled => ?_, fun _ hpaused hactive => ?_⟩
    · exact absurd (hidle henabled).1 (by simp [hdisabled])
    · obtain ⟨henabled, hunpaused⟩ := (active_iff t).1 hactive
      exact absurd ((hidle henabled).2 hpaused) (by simp [hunpaused])

end Sys2Proof.Machine

/-! ### The rate change hazard (spec/70_reset_and_hazards.md R171, R178) -/

namespace Sys2Proof.Machine

open Sys2Proof

/-- R135: a new rate while enabled leaves the block stale, its buffers undefined. -/
theorem exec_setFps_of_enabled {s : State} (he : s.enabled = true) {f : Fps} (hne : f ≠ s.fps) :
    exec (.setFps (fpsNat f)) s = .next { s with fps := f, cfgStale := true, bufsValid := false } := by
  obtain ⟨_, _, henabled, _⟩ := setFpsChangesTheRate (fpsNat f) s
  exact henabled f rfl hne he

/-- R171: staleness is the first check past the gate of MIX, PUSH and TICK, whatever the length asked for. -/
theorem exec_audio_of_stale {s : State} (he : s.enabled = true) (hp : s.paused = false) (hs : s.cfgStale = true)
    (n : Nat) :
    exec (.mix n) s = .next (raiseFault .cfgStale s) ∧ exec (.push n) s = .next (raiseFault .cfgStale s) ∧
      exec (.tick n) s = .next (raiseFault .cfgStale s) := by
  obtain ⟨hstale, _, _⟩ := audioFaultsInOrder n s he hp
  exact ⟨hstale hs _ (by simp), hstale hs _ (by simp), hstale hs _ (by simp)⟩

/-- Settles O23: SET_FPS leaves the stale state of the new rate, still enabled and of the same configuration, so the
audio commands of an unpaused block stop at the staleness check and RESET runs on it. -/
theorem rateChangeNeedsAReset : Obligations.RateChangeNeedsAReset := by
  unfold Obligations.RateChangeNeedsAReset
  intro f s hc he hne
  exact ⟨_, _, exec_setFps_of_enabled he hne, rfl, fun hp => exec_audio_of_stale (by exact he) hp rfl,
    exec_reset_of_enabled (by exact he), ringCleared_ringReset hc, ringReset_fps _⟩

end Sys2Proof.Machine
